-- ==== Sys2Proof/Word.lean ====
section
/-! DEFINITION. The word types of the core: `00_scope.md` R7 (widths), R9 (bit 0 is the least significant bit),
R10 (every value is an unsigned integer of a stated width). -/

namespace Sys2Proof

/-- One byte of memory, one V register, one timer, one key slot (R7 REG_WIDTH). -/
abbrev Byte := BitVec 8

/-- A 16-bit value: an instruction word, `I`, `pc`, a stack entry, a fault's `info` (R7 I_WIDTH, PC_WIDTH). -/
abbrev Word := BitVec 16

/-- A 4-bit field of an instruction: a register index `x` or `y`, or the row count `n` (R71). -/
abbrev Nibble := BitVec 4

/-- The 12-bit field `nnn` of an instruction (R71). -/
abbrev Addr12 := BitVec 12

end Sys2Proof
end

