-- ==== Sys2Proof/Config.lean ====
section
/-! DEFINITION. What an implementation fixes (the open parameters of `00_scope.md` R8) and the one free value,
the byte of the random input (`43_random.md` R161). -/

namespace Sys2Proof

/-- DRAW_EDGE_POLICY: what a sprite cell beyond the framebuffer's edge is (`46_display.md` R183). -/
inductive DrawEdgePolicy where
  | raw
  | clip
  | wrap
  deriving DecidableEq, Repr

/-- VF_WRITE_ORDER: whether the flag or the result is written last (`41_register_ops.md` R131). -/
inductive VfWriteOrder where
  | flagLast
  | flagFirst
  deriving DecidableEq, Repr

/-- UNKNOWN_POLICY: what the HOST does after an unknown instruction (`60_exceptions.md` R202). -/
inductive UnknownPolicy where
  | halt
  | skip
  deriving DecidableEq, Repr

/-- FONT: the 80 bytes `initialize` leaves at addresses 0x000 to 0x04F (`10_state.md` R38). -/
abbrev Font := Vector Byte 80

/-- The open parameters of R8. "The model takes each as an argument": the argument arrives as the field `cfg` of the
state, which no step and no host action changes (log entry 4, DESIGN CHOICE in its form). -/
structure Config where
  drawEdge : DrawEdgePolicy
  vfWriteOrder : VfWriteOrder
  unknownPolicy : UnknownPolicy
  font : Font
  deriving DecidableEq, Repr

/-- The byte the random input delivers at the `k`-th draw of a run, a FREE VALUE (R161: "any of the 256 values at each
execution, with no relation to earlier draws"). It has no body, so no proof can see which byte it is; a claim about
it holds for every sequence of draws (log entry 3). -/
opaque Config.randByte : Nat → Byte

end Sys2Proof
end

