-- ==== Sys2Proof/Syntax.lean ====
section
/-! DEFINITION. The 34 instructions of the opcode map, `30_encoding.md` R76, in its order: one constructor per row,
its arguments the fields of R71 that the row's format (R72) uses. -/

namespace Sys2Proof

inductive Instr where
  /-- `1nnn` JP nnn (R100) -/
  | jp (nnn : Addr12)
  /-- `2nnn` CALL nnn (R101) -/
  | call (nnn : Addr12)
  /-- `00EE` RET (R102) -/
  | ret
  /-- `3xnn` SE Vx, nn (R103) -/
  | seImm (x : Nibble) (nn : Byte)
  /-- `4xnn` SNE Vx, nn (R104) -/
  | sneImm (x : Nibble) (nn : Byte)
  /-- `5xy0` SE Vx, Vy (R105) -/
  | seReg (x y : Nibble)
  /-- `9xy0` SNE Vx, Vy (R106) -/
  | sneReg (x y : Nibble)
  /-- `Bnnn` JP V0, nnn (R107) -/
  | jpV0 (nnn : Addr12)
  /-- `6xnn` LD Vx, nn (R120) -/
  | ldImm (x : Nibble) (nn : Byte)
  /-- `7xnn` ADD Vx, nn (R121) -/
  | addImm (x : Nibble) (nn : Byte)
  /-- `8xy0` LD Vx, Vy (R122) -/
  | ldReg (x y : Nibble)
  /-- `8xy1` OR Vx, Vy (R123) -/
  | or (x y : Nibble)
  /-- `8xy2` AND Vx, Vy (R124) -/
  | and (x y : Nibble)
  /-- `8xy3` XOR Vx, Vy (R125) -/
  | xor (x y : Nibble)
  /-- `8xy4` ADD Vx, Vy (R126) -/
  | addReg (x y : Nibble)
  /-- `8xy5` SUB Vx, Vy (R127) -/
  | sub (x y : Nibble)
  /-- `8xy7` SUBN Vx, Vy (R128) -/
  | subn (x y : Nibble)
  /-- `8xy6` SHR Vx (R129); `y` is decoded and ignored (R78) -/
  | shr (x y : Nibble)
  /-- `8xyE` SHL Vx (R130); `y` is decoded and ignored (R78) -/
  | shl (x y : Nibble)
  /-- `Annn` LD I, nnn (R140) -/
  | ldI (nnn : Addr12)
  /-- `Fx29` LD F, Vx (R141) -/
  | ldF (x : Nibble)
  /-- `Fx1E` ADD I, Vx (R142) -/
  | addI (x : Nibble)
  /-- `Fx33` LD B, Vx (R143) -/
  | ldB (x : Nibble)
  /-- `Fx55` LD [I], Vx, the bulk store (R144) -/
  | storeRegs (x : Nibble)
  /-- `Fx65` LD Vx, [I], the bulk load (R145) -/
  | loadRegs (x : Nibble)
  /-- `Cxnn` RND Vx, nn (R160) -/
  | rnd (x : Nibble) (nn : Byte)
  /-- `Ex9E` SKP Vx (R165) -/
  | skp (x : Nibble)
  /-- `ExA1` SKNP Vx (R166) -/
  | sknp (x : Nibble)
  /-- `Fx0A` LD Vx, K, the key wait (R167) -/
  | ldKey (x : Nibble)
  /-- `Fx07` LD Vx, DT (R175) -/
  | ldFromDT (x : Nibble)
  /-- `Fx15` LD DT, Vx (R176) -/
  | ldDT (x : Nibble)
  /-- `Fx18` LD ST, Vx (R177) -/
  | ldST (x : Nibble)
  /-- `00E0` CLS (R180) -/
  | cls
  /-- `Dxyn` DRW Vx, Vy, n (R181) -/
  | drw (x y n : Nibble)
  deriving DecidableEq, Repr

/-- Why bytes are no instruction. -/
inductive DecodeError where
  /-- The word selects no row of R76: `Unknown` of R74, "carrying the raw 16-bit value for diagnostics" (R77). -/
  | unknownInstruction (w : Word)
  /-- Fewer than the two bytes every instruction has (R70). The core's own fetch always has two (R54). -/
  | truncated
  deriving DecidableEq, Repr

end Sys2Proof
end

