-- ==== Sys2Proof/WellFormed.lean ====
section
/-! DEFINITION. The checks on what is given to the machine from outside: an instruction, a configuration, a program
image.  An instruction's fields are bit vectors of exactly the widths of R71, so EVERY term of `Instr` is well formed
(a register index is "always within [0,16)" by construction, `10_state.md` R21); the two other checks can fail. -/

namespace Sys2Proof

/-- Every term of `Instr` has an encoding: the field types already are the widths of R71, and R78 ignores no bit that
a term does not carry. -/
def Instr.wellFormed (_ : Instr) : Bool := true

/-- The bytes of glyph 0, the only ones the source gives (`10_state.md` R38). -/
def glyphZero : List Byte := [0xF0, 0x90, 0x90, 0x90, 0xF0]

/-- A configuration is one the spec allows when the first five bytes of FONT are glyph 0's: "`FONT` is a parameter of the
model whose first five bytes are fixed" (R38). -/
def Config.wellFormed (c : Config) : Bool :=
  c.font.toList.take 5 == glyphZero

/-- IMAGE_MAX of `00_scope.md` R7: 4096 - 512. -/
def imageMax : Nat := 3584

/-- A program image `load` accepts (`70_reset_and_hazards.md` R232): at most 3584 bytes. -/
def imageFits (image : List Byte) : Bool :=
  decide (image.length ≤ imageMax)

end Sys2Proof
end

