-- ==== Sys2Proof/Decode.lean ====
section
/-! DEFINITION. The decoder of `30_encoding.md` R74 (total on the 65536 words, rejecting by name), and after it the
encoder of R82. Opcode numbers are those of R76; 32 of the 34 are the spec's general knowledge (log entry 7). -/

namespace Sys2Proof

/-! ### The fields of R71 -/

/-- `op = w[15:12]`, the "primary dispatch key". -/
def fieldOp (w : Word) : Nibble := w.extractLsb' 12 4

/-- `x = w[11:8]`. -/
def fieldX (w : Word) : Nibble := w.extractLsb' 8 4

/-- `y = w[7:4]`. -/
def fieldY (w : Word) : Nibble := w.extractLsb' 4 4

/-- `n = w[3:0]`. -/
def fieldN (w : Word) : Nibble := w.extractLsb' 0 4

/-- `nn = w[7:0]`. -/
def fieldNN (w : Word) : Byte := w.extractLsb' 0 8

/-- `nnn = w[11:0]`. -/
def fieldNNN (w : Word) : Addr12 := w.extractLsb' 0 12

/-! ### Decode (R74) -/

/-- `op` 0: the whole word is matched (R74, R77). -/
def decodeOp0 (w : Word) : Except DecodeError Instr :=
  if w = 0x00E0#16 then .ok .cls
  else if w = 0x00EE#16 then .ok .ret
  else .error (.unknownInstruction w)

/-- `op` 8: the register operations, selected by `n` (R74). -/
def decodeOp8 (w : Word) : Except DecodeError Instr :=
  match fieldN w with
  | 0x0#4 => .ok (.ldReg (fieldX w) (fieldY w))
  | 0x1#4 => .ok (.or (fieldX w) (fieldY w))
  | 0x2#4 => .ok (.and (fieldX w) (fieldY w))
  | 0x3#4 => .ok (.xor (fieldX w) (fieldY w))
  | 0x4#4 => .ok (.addReg (fieldX w) (fieldY w))
  | 0x5#4 => .ok (.sub (fieldX w) (fieldY w))
  | 0x6#4 => .ok (.shr (fieldX w) (fieldY w))
  | 0x7#4 => .ok (.subn (fieldX w) (fieldY w))
  | 0xE#4 => .ok (.shl (fieldX w) (fieldY w))
  | _ => .error (.unknownInstruction w)

/-- `op` E: the key skips, selected by `nn` (R74). -/
def decodeOpE (w : Word) : Except DecodeError Instr :=
  match fieldNN w with
  | 0x9E#8 => .ok (.skp (fieldX w))
  | 0xA1#8 => .ok (.sknp (fieldX w))
  | _ => .error (.unknownInstruction w)

/-- `op` F: the instructions with one register operand, selected by `nn` (R74). -/
def decodeOpF (w : Word) : Except DecodeError Instr :=
  match fieldNN w with
  | 0x07#8 => .ok (.ldFromDT (fieldX w))
  | 0x0A#8 => .ok (.ldKey (fieldX w))
  | 0x15#8 => .ok (.ldDT (fieldX w))
  | 0x18#8 => .ok (.ldST (fieldX w))
  | 0x1E#8 => .ok (.addI (fieldX w))
  | 0x29#8 => .ok (.ldF (fieldX w))
  | 0x33#8 => .ok (.ldB (fieldX w))
  | 0x55#8 => .ok (.storeRegs (fieldX w))
  | 0x65#8 => .ok (.loadRegs (fieldX w))
  | _ => .error (.unknownInstruction w)

/-- `Decode(w)` of R74. "Decode is a total function from the 65536 instruction words to the 34 instructions plus
`Unknown`"; it depends on the word alone (R79). -/
def decode (w : Word) : Except DecodeError Instr :=
  match fieldOp w with
  | 0x0#4 => decodeOp0 w
  | 0x1#4 => .ok (.jp (fieldNNN w))
  | 0x2#4 => .ok (.call (fieldNNN w))
  | 0x3#4 => .ok (.seImm (fieldX w) (fieldNN w))
  | 0x4#4 => .ok (.sneImm (fieldX w) (fieldNN w))
  | 0x5#4 => if fieldN w = 0#4 then .ok (.seReg (fieldX w) (fieldY w)) else .error (.unknownInstruction w)
  | 0x6#4 => .ok (.ldImm (fieldX w) (fieldNN w))
  | 0x7#4 => .ok (.addImm (fieldX w) (fieldNN w))
  | 0x8#4 => decodeOp8 w
  | 0x9#4 => if fieldN w = 0#4 then .ok (.sneReg (fieldX w) (fieldY w)) else .error (.unknownInstruction w)
  | 0xA#4 => .ok (.ldI (fieldNNN w))
  | 0xB#4 => .ok (.jpV0 (fieldNNN w))
  | 0xC#4 => .ok (.rnd (fieldX w) (fieldNN w))
  | 0xD#4 => .ok (.drw (fieldX w) (fieldY w) (fieldN w))
  | 0xE#4 => decodeOpE w
  | _ => decodeOpF w

/-- An instruction word from its two bytes, "high byte first" (R70, `20_memory.md` R54). -/
def wordOfBytes (hi lo : Byte) : Word := hi ++ lo

/-- The bytes of an instruction word: `w / 256` at the lower address, `w mod 256` at the next (R82). -/
def bytesOfWord (w : Word) : List Byte := [w.extractLsb' 8 8, w.extractLsb' 0 8]

/-- The instruction at the head of a byte sequence and the bytes after it; every instruction is two bytes (R70). -/
def decodeBytes : List Byte → Except DecodeError (Instr × List Byte)
  | hi :: lo :: rest =>
    match decode (wordOfBytes hi lo) with
    | .ok i => .ok (i, rest)
    | .error e => .error e
  | _ => .error .truncated

/-- The word a row of `spec/opcode_table.json` stands for: its `nbits` low bits, every bit above them 0. -/
def tableWord (nbits w : Nat) : Word := BitVec.ofNat 16 (w % 2 ^ nbits)

/-- The instruction the decoder reads from a table row's bits laid out as the core stores them. -/
def decodeTableWord (nbits w : Nat) : Option Instr :=
  match decodeBytes (bytesOfWord (tableWord nbits w)) with
  | .ok (i, _) => some i
  | .error _ => none

/-! ### Encode (R82), written from the formats of R72 -/

/-- Format NNN: `w = op * 4096 + nnn`. -/
def formNNN (op : Nibble) (nnn : Addr12) : Word := op ++ nnn

/-- Formats XNN and X: `w = op * 4096 + x * 256 + nn`, with `nn` the sub-opcode for X. -/
def formXNN (op x : Nibble) (nn : Byte) : Word := op ++ (x ++ nn)

/-- Formats XY and XYN: `w = op * 4096 + x * 256 + y * 16 + n`, with `n` the sub-opcode for XY. -/
def formXYN (op x y n : Nibble) : Word := op ++ (x ++ (y ++ n))

/-- The word of an instruction. -/
def encode : Instr → Word
  | .jp nnn => formNNN 0x1 nnn
  | .call nnn => formNNN 0x2 nnn
  | .ret => 0x00EE
  | .seImm x nn => formXNN 0x3 x nn
  | .sneImm x nn => formXNN 0x4 x nn
  | .seReg x y => formXYN 0x5 x y 0x0
  | .sneReg x y => formXYN 0x9 x y 0x0
  | .jpV0 nnn => formNNN 0xB nnn
  | .ldImm x nn => formXNN 0x6 x nn
  | .addImm x nn => formXNN 0x7 x nn
  | .ldReg x y => formXYN 0x8 x y 0x0
  | .or x y => formXYN 0x8 x y 0x1
  | .and x y => formXYN 0x8 x y 0x2
  | .xor x y => formXYN 0x8 x y 0x3
  | .addReg x y => formXYN 0x8 x y 0x4
  | .sub x y => formXYN 0x8 x y 0x5
  | .subn x y => formXYN 0x8 x y 0x7
  | .shr x y => formXYN 0x8 x y 0x6
  | .shl x y => formXYN 0x8 x y 0xE
  | .ldI nnn => formNNN 0xA nnn
  | .ldF x => formXNN 0xF x 0x29
  | .addI x => formXNN 0xF x 0x1E
  | .ldB x => formXNN 0xF x 0x33
  | .storeRegs x => formXNN 0xF x 0x55
  | .loadRegs x => formXNN 0xF x 0x65
  | .rnd x nn => formXNN 0xC x nn
  | .skp x => formXNN 0xE x 0x9E
  | .sknp x => formXNN 0xE x 0xA1
  | .ldKey x => formXNN 0xF x 0x0A
  | .ldFromDT x => formXNN 0xF x 0x07
  | .ldDT x => formXNN 0xF x 0x15
  | .ldST x => formXNN 0xF x 0x18
  | .cls => 0x00E0
  | .drw x y n => formXYN 0xD x y n

/-- The two bytes of an instruction in memory order. -/
def encodeBytes (i : Instr) : List Byte := bytesOfWord (encode i)

/-! ### The opcode map as a table (R76) -/

/-- One row of R76: a word `w` selects the row iff `w AND mask = match`. -/
structure OpcodeRow where
  mask : Word
  value : Word
  deriving DecidableEq, Repr

/-- The row of R76 an instruction belongs to. -/
def Instr.row : Instr → OpcodeRow
  | .jp _ => ⟨0xF000, 0x1000⟩
  | .call _ => ⟨0xF000, 0x2000⟩
  | .ret => ⟨0xFFFF, 0x00EE⟩
  | .seImm _ _ => ⟨0xF000, 0x3000⟩
  | .sneImm _ _ => ⟨0xF000, 0x4000⟩
  | .seReg _ _ => ⟨0xF00F, 0x5000⟩
  | .sneReg _ _ => ⟨0xF00F, 0x9000⟩
  | .jpV0 _ => ⟨0xF000, 0xB000⟩
  | .ldImm _ _ => ⟨0xF000, 0x6000⟩
  | .addImm _ _ => ⟨0xF000, 0x7000⟩
  | .ldReg _ _ => ⟨0xF00F, 0x8000⟩
  | .or _ _ => ⟨0xF00F, 0x8001⟩
  | .and _ _ => ⟨0xF00F, 0x8002⟩
  | .xor _ _ => ⟨0xF00F, 0x8003⟩
  | .addReg _ _ => ⟨0xF00F, 0x8004⟩
  | .sub _ _ => ⟨0xF00F, 0x8005⟩
  | .subn _ _ => ⟨0xF00F, 0x8007⟩
  | .shr _ _ => ⟨0xF00F, 0x8006⟩
  | .shl _ _ => ⟨0xF00F, 0x800E⟩
  | .ldI _ => ⟨0xF000, 0xA000⟩
  | .ldF _ => ⟨0xF0FF, 0xF029⟩
  | .addI _ => ⟨0xF0FF, 0xF01E⟩
  | .ldB _ => ⟨0xF0FF, 0xF033⟩
  | .storeRegs _ => ⟨0xF0FF, 0xF055⟩
  | .loadRegs _ => ⟨0xF0FF, 0xF065⟩
  | .rnd _ _ => ⟨0xF000, 0xC000⟩
  | .skp _ => ⟨0xF0FF, 0xE09E⟩
  | .sknp _ => ⟨0xF0FF, 0xE0A1⟩
  | .ldKey _ => ⟨0xF0FF, 0xF00A⟩
  | .ldFromDT _ => ⟨0xF0FF, 0xF007⟩
  | .ldDT _ => ⟨0xF0FF, 0xF015⟩
  | .ldST _ => ⟨0xF0FF, 0xF018⟩
  | .cls => ⟨0xFFFF, 0x00E0⟩
  | .drw _ _ _ => ⟨0xF000, 0xD000⟩

/-- A word selects a row (R76). -/
def OpcodeRow.selects (r : OpcodeRow) (w : Word) : Bool := w &&& r.mask == r.value

end Sys2Proof
end

