-- ==== Sys2Proof/Machine/Defaults.lean ====
section
/-! DEFINITION. The fixed numbers of the core (`00_scope.md` R7) and the defaults of its open parameters (R8, `10_state.md`
R38). -/

namespace Sys2Proof.Machine

/-- MEM_SIZE (R7): addresses 0x000 to 0xFFF. -/
def memSize : Nat := 4096

/-- LOAD_BASE (R7): where the program image is loaded and where `pc` starts. -/
def loadBase : Nat := 0x200

/-- STACK_DEPTH (R7). -/
def stackDepth : Nat := 16

/-- The number of framebuffer cells, FB_WIDTH * FB_HEIGHT (R7). -/
def fbCells : Nat := 2048

/-- Glyphs 0 to 7 of the conventional table of R38. Glyph 0 is the source's, the others are the spec's general
knowledge (PRESUMED, log entry 18). -/
def fontLow : Vector Byte 40 :=
  #v[0xF0, 0x90, 0x90, 0x90, 0xF0,
     0x20, 0x60, 0x20, 0x20, 0x70,
     0xF0, 0x10, 0xF0, 0x80, 0xF0,
     0xF0, 0x10, 0xF0, 0x10, 0xF0,
     0x90, 0x90, 0xF0, 0x10, 0x10,
     0xF0, 0x80, 0xF0, 0x10, 0xF0,
     0xF0, 0x80, 0xF0, 0x90, 0xF0,
     0xF0, 0x10, 0x20, 0x40, 0x40]

/-- Glyphs 8 to F of the conventional table of R38 (PRESUMED, log entry 18). -/
def fontHigh : Vector Byte 40 :=
  #v[0xF0, 0x90, 0xF0, 0x90, 0xF0,
     0xF0, 0x90, 0xF0, 0x10, 0xF0,
     0xF0, 0x90, 0xF0, 0x90, 0x90,
     0xE0, 0x90, 0xE0, 0x90, 0xE0,
     0xF0, 0x80, 0x80, 0x80, 0xF0,
     0xE0, 0x90, 0x90, 0x90, 0xE0,
     0xF0, 0x80, 0xF0, 0x80, 0xF0,
     0xF0, 0x80, 0xF0, 0x80, 0x80]

/-- The default FONT of R38. -/
def fontDefault : Font := fontLow ++ fontHigh

/-- The defaults of R8: `raw`, `flag_last`, `halt`, the conventional font. -/
def defaultConfig : Config :=
  { drawEdge := .raw, vfWriteOrder := .flagLast, unknownPolicy := .halt, font := fontDefault }

end Sys2Proof.Machine
end

