-- ==== Sys2Proof/Machine/State.lean ====
section
/-! DEFINITION. The state of the core, `10_state.md` R20 to R41, as plain data, and the machine right after reset. -/

namespace Sys2Proof.Machine

/-- The seven fatal causes of `60_exceptions.md` R200. (Its other two causes are not fatal faults: `ImageTooLarge` is a
result of `load`, `UnknownInstruction` an output of a cycle.) -/
inductive FatalCause where
  /-- code 3, `CALL` with `sp = 16` (R203) -/
  | stackOverflow
  /-- code 4, `RET` with `sp = 0` (R204) -/
  | stackUnderflow
  /-- code 5, fetch with `pc < 0x200` or `pc > 0xFFE` (R205) -/
  | pcOutOfRange
  /-- code 6, fetch with an odd `pc` in range (R206) -/
  | pcMisaligned
  /-- code 7, a data access above 0xFFF (R207) -/
  | memoryOutOfRange
  /-- code 8, `SKP` or `SKNP` with `V[x] > 15` (R208) -/
  | keyIndexOutOfRange
  /-- code 9, `DRW` under the `raw` policy past cell 2047 (R209) -/
  | framebufferOutOfRange
  deriving DecidableEq, Repr

/-- `status` (R34): `Running`, or `Faulted(cause, info)`. -/
inductive Status where
  | running
  | faulted (cause : FatalCause) (info : Word)
  deriving DecidableEq, Repr

/-- The outcome of the last cycle: the four outcomes of `00_scope.md` R13, kept distinct, and `idle` for "no cycle has run
since reset, or the last one found the core halted" (`47_step_driver.md` R199). It is the core's OUTPUT `err` of
`60_exceptions.md` R210 held until the next cycle, not an element of the spec's Machine State (log entry 2). -/
inductive CycleResult where
  | idle
  | completed
  | waitingForKey
  | unknownInstruction (w : Word)
  | fatal (cause : FatalCause) (info : Word)
  deriving DecidableEq, Repr

/-- Why a step stops with a fault: NEVER. Every fault of the spec has an entry that the spec describes (R213: `status` latches
it and nothing else changes), so it is a next state, and every state of the type has a meaning. The type has no
constructor, so no step can end in `Outcome.fault` (safe, log entry 1). -/
inductive Fault where
  deriving DecidableEq, Repr

/-- Why a step is refused. -/
inductive Refusal where
  /-- Raised by an arm of `exec` whose instruction has no meaning yet; no arm is left so (safe). -/
  | notModelled (mnemonic : String)
  deriving DecidableEq, Repr

/-- Memory as the sorted list of the bytes that differ from the reset contents (R30, R37; log entry 6). -/
abbrev Memory := List Host.Cell

/-- Machine State (R20). -/
structure State where
  /-- `V[0..15]`, the general registers; `V[15]` is VF (R21, R22) -/
  v : Vector Byte 16
  /-- `I`, the address register (R23) -/
  i : Word
  /-- `pc` (R24) -/
  pc : Word
  /-- `stack[0..15]`, the return addresses (R26) -/
  stack : Vector Word 16
  /-- `sp`, the next-free index, 0 to 16 (R27; log entry 5) -/
  sp : Fin 17
  /-- `DT`, the delay timer (R28) -/
  dt : Byte
  /-- `ST`, the sound timer (R29) -/
  st : Byte
  /-- `memory[0..4095]` (R30) -/
  mem : Memory
  /-- `fb[0..2047]`, bit `k` is the cell `fb[k]` (R31) -/
  fb : BitVec 2048
  /-- `keys[0..15]`, written by the host only (R32) -/
  keys : Vector Byte 16
  /-- `redrawPending` (R33) -/
  redrawPending : Bool
  /-- `status` (R34) -/
  status : Status
  /-- the open parameters of `00_scope.md` R8, which nothing changes (log entry 4) -/
  cfg : Config
  /-- the model's own: the outcome of the last cycle, the output `err` (log entry 2) -/
  result : CycleResult
  /-- the model's own: how many bytes the random input has delivered (log entry 3) -/
  draws : Nat
  deriving DecidableEq, Repr

/-- The machine after `initialize`, for a choice of the open parameters: the table of R37. The memory lists nothing,
because an unlisted byte reads as its reset contents. -/
def State.resetWith (c : Config) : State :=
  { v := Vector.replicate 16 0
    i := 0
    pc := 0x0200
    stack := Vector.replicate 16 0
    sp := 0
    dt := 0
    st := 0
    mem := []
    fb := 0
    keys := Vector.replicate 16 0
    redrawPending := false
    status := .running
    cfg := c
    result := .idle
    draws := 0 }

/-- The machine right after reset (R37), the open parameters at the defaults of `00_scope.md` R8. -/
def State.reset : State := State.resetWith defaultConfig

end Sys2Proof.Machine
end

