-- ==== Sys2Proof/Machine/Ops.lean ====
section
/-! DEFINITION. The named operations over memory and registers, the ways an instruction ends, and taking a fatal fault. -/

namespace Sys2Proof.Machine

/-! ### Memory (`20_memory.md` R50 to R55) -/

/-- What an address reads as while nothing has been written to it: the contents after `initialize`, `FONT` at 0x000 to 0x04F
and 0 everywhere else (`10_state.md` R30, R37). -/
def memDefault (font : Font) (a : Nat) : Byte := font.getD a 0

/-- The listed byte at an address, if there is one. -/
def memFind : Memory → Nat → Option Byte
  | [], _ => none
  | (k, b) :: rest, a => if k = a then some b else memFind rest a

/-- `MemRead(addr, 1)` of R53 for an address in range. -/
def memRead (font : Font) (m : Memory) (a : Nat) : Byte := (memFind m a).getD (memDefault font a)

/-- Remove every entry of an address (a canonical list has at most one). -/
def memErase : Memory → Nat → Memory
  | [], _ => []
  | (k, b) :: rest, a => if k = a then memErase rest a else (k, b) :: memErase rest a

/-- Put a byte into the sorted list, in place of the address's old entry if it has one. -/
def memInsert : Memory → Nat → Byte → Memory
  | [], a, v => [(a, v)]
  | (k, b) :: rest, a, v =>
    if a < k then (a, v) :: (k, b) :: rest
    else if k = a then (a, v) :: rest
    else (k, b) :: memInsert rest a v

/-- `MemWrite(addr, 1, v)` of R53 for an address in range. Writing what an unlisted address reads as removes the entry,
so that equal memories are equal lists. Above 0xFFF there is no byte: nothing is written (every caller has checked its
range first, log entry 10). -/
def memWrite (font : Font) (m : Memory) (a : Nat) (v : Byte) : Memory :=
  if a < memSize then (if v = memDefault font a then memErase m a else memInsert m a v) else m

/-- The canonical form: addresses strictly rising and inside memory, no entry equal to what an unlisted address reads
as. -/
abbrev Memory.wf (font : Font) (m : Memory) : Prop :=
  m.Pairwise (fun p q => p.1 < q.1) ∧ ∀ p ∈ m, p.1 < memSize ∧ p.2 ≠ memDefault font p.1

/-- `memory[a]`. -/
def State.readByte (s : State) (a : Nat) : Byte := memRead s.cfg.font s.mem a

/-- `memory[a] <- b`. -/
def State.writeByte (s : State) (a : Nat) (b : Byte) : State :=
  { s with mem := memWrite s.cfg.font s.mem a b }

/-- Consecutive bytes at ascending addresses (R55). -/
def storeBytes : List Byte → Nat → State → State
  | [], _, s => s
  | b :: bs, a, s => storeBytes bs (a + 1) (s.writeByte a b)

/-- The big-endian word at an address (R54). -/
def State.readWord (s : State) (a : Nat) : Word := wordOfBytes (s.readByte a) (s.readByte (a + 1))

/-! ### Registers (`00_scope.md` R11) -/

/-- `V[x]`. -/
def State.getV (s : State) (x : Nibble) : Byte := s.v[x.toNat]'x.isLt

/-- `V[x] <- b`. -/
def State.setV (s : State) (x : Nibble) (b : Byte) : State :=
  { s with v := s.v.set x.toNat b x.isLt }

/-- `VF` is `V[15]`. -/
abbrev regF : Nibble := 0xF

/-- `VF <- flag`: "A flag value is always 0x00 or 0x01" (`41_register_ops.md` R133). -/
def State.setFlag (s : State) (flag : Bool) : State := s.setV regF (if flag then 1 else 0)

/-- `I <- a`. -/
def State.setI (s : State) (a : Word) : State := { s with i := a }

/-- `DT <- b`. -/
def State.setDT (s : State) (b : Byte) : State := { s with dt := b }

/-- `ST <- b`. -/
def State.setST (s : State) (b : Byte) : State := { s with st := b }

/-! ### The call stack (`10_state.md` R26, R27) -/

/-- `stack[k]`; every reader has `k <= 15`. -/
def State.stackAt (s : State) (k : Nat) : Word := s.stack.getD k 0

/-- `stack[sp] <- a`, `sp <- sp + 1`, for `sp <= 15` (`40_control_flow.md` R101). -/
def State.push (s : State) (a : Word) (h : s.sp.val < 16) : State :=
  { s with stack := s.stack.set s.sp.val a h, sp := ⟨s.sp.val + 1, Nat.succ_lt_succ h⟩ }

/-- `sp <- sp - 1`, for `sp >= 1`; the popped entry stays in the array (R102). -/
def State.pop (s : State) : State :=
  { s with sp := ⟨s.sp.val - 1, Nat.lt_of_le_of_lt (Nat.sub_le _ _) s.sp.isLt⟩ }

/-! ### The framebuffer (`10_state.md` R31) -/

/-- The framebuffer written by `CLS` or `DRW`, which "set `redrawPending` to 1 every time they complete" (R33). -/
def State.setDisplay (s : State) (fb : BitVec 2048) : State := { s with fb := fb, redrawPending := true }

/-- `fb[k]`. -/
def State.cell (s : State) (k : Nat) : Bool := s.fb.getLsbD k

/-! ### How an instruction ends (`47_step_driver.md` R190 step 7) -/

/-- `pc <- next` and the outcome `Completed`. -/
def State.endAt (s : State) (next : Word) : State := { s with pc := next, result := .completed }

/-- "A set of writes, among them `pc <- next`": the outcome `Completed`. -/
def complete (s : State) (next : Word) : Host.Outcome State Fault Refusal := .next (s.endAt next)

/-- `pc + 2`, the next instruction (`10_state.md` R25). -/
def State.nextPc (s : State) : Word := s.pc + 2

/-- `pc + 4`, the instruction after the next (`10_state.md` R25). -/
def State.skipPc (s : State) : Word := s.pc + 4

/-- Complete at `pc + 2`. -/
def completeNext (s : State) : Host.Outcome State Fault Refusal := complete s s.nextPc

/-- "if <condition> then pc <- pc + 4 else pc <- pc + 2": the skip instructions (`40_control_flow.md` R103). -/
def skipIf (condition : Bool) (s : State) : Host.Outcome State Fault Refusal :=
  complete s (if condition then s.skipPc else s.nextPc)

/-- The outcome `NotCompleted(WaitingForKey)`: no state element changes, and nothing is reported (`47_step_driver.md` R193). -/
def State.keyWait (s : State) : State := { s with result := .waitingForKey }

/-- `not_completed` of the key wait (`44_input.md` R167). -/
def waitForKey (s : State) : Host.Outcome State Fault Refusal := .next s.keyWait

/-! ### Taking a fatal fault, and the way back -/

/-- Entry of a fatal fault (`60_exceptions.md` R213): "`status <- Faulted(cause, info)` and no other state element changes, not
`pc`, not `sp` or the stack, not the timers, not memory or the framebuffer". Control goes nowhere: the core halts. -/
def takeFault (cause : FatalCause) (info : Word) (s : State) : State :=
  { s with status := .faulted cause info, result := .fatal cause info }

/-- `raise <Fault>(info)` inside an instruction's rule (`00_scope.md` R12). -/
def raiseFault (cause : FatalCause) (info : Word) (s : State) : Host.Outcome State Fault Refusal :=
  .next (takeFault cause info s)

/-- The return from a fatal fault: there is none for a program; "only the host's `initialize` clears `status`, and it clears
everything else too" (R214). `initialize` (`70_reset_and_hazards.md` R230, R231) gives the reset state whatever came before; the open
parameters are not state and stay, and bytes the random input has delivered stay delivered (log entry 21). -/
def State.initialize (s : State) : State := { State.resetWith s.cfg with draws := s.draws }

/-- The code of a fatal cause (R200). -/
def FatalCause.code : FatalCause → Nat
  | .stackOverflow => 3
  | .stackUnderflow => 4
  | .pcOutOfRange => 5
  | .pcMisaligned => 6
  | .memoryOutOfRange => 7
  | .keyIndexOutOfRange => 8
  | .framebufferOutOfRange => 9

/-- The output `err` of the last cycle: "`none`, `(2, w)`, or the `(cause, info)` just latched" (R210), the cause by its code. -/
def State.err (s : State) : Option (Nat × Word) :=
  match s.result with
  | .idle => none
  | .completed => none
  | .waitingForKey => none
  | .unknownInstruction w => some (2, w)
  | .fatal c info => some (c.code, info)

/-! ### The random input (`43_random.md` R161) -/

/-- The byte the random input delivers now. -/
def State.drawnByte (s : State) : Byte := Config.randByte s.draws

/-- One byte has been consumed. -/
def State.afterDraw (s : State) : State := { s with draws := s.draws + 1 }

/-! ### Timers (`10_state.md` R28, R29) -/

/-- "decremented ... while > 0; no wraparound below zero". -/
def tickTimer (t : Byte) : Byte := if t = 0 then 0 else t - 1

/-- Both timers tick (`47_step_driver.md` R190 step 9). -/
def State.tick (s : State) : State := { s with dt := tickTimer s.dt, st := tickTimer s.st }

end Sys2Proof.Machine
end

