-- ==== Sys2Proof/Machine/Operands.lean ====
section
/-! DEFINITION. The operand forms of the instruction set: zero-extended immediates (`30_encoding.md` R73), addresses through `I` (`42_memory_ops.md`
R146), the glyph address (R141), decimal digits (R143), key numbers (`44_input.md` R165 to R168), register lists (R144, R145). -/

namespace Sys2Proof.Machine

/-- `zext_16(nnn)` (R73). -/
def zextAddr (nnn : Addr12) : Word := nnn.setWidth 16

/-- `zext_16(V[x])`. -/
def zextByte (b : Byte) : Word := b.setWidth 16

/-- The last legal address, 0xFFF (`20_memory.md` R50). -/
def lastAddr : Nat := 0xFFF

/-- The lowest address of the range `I, I + 1, ...` that exceeds 0xFFF, when the range of `len` bytes reaches one: `max(I, 0x1000)`
(`60_exceptions.md` R207). "The address is never reduced modulo 4096" (R53), and an empty range reaches nothing. -/
def rangeFault (i : Word) (len : Nat) : Option Word :=
  if 0 < len ∧ lastAddr < i.toNat + len - 1 then some (BitVec.ofNat 16 (max i.toNat 0x1000)) else none

/-- Every data instruction "checks its whole address range before it makes its first access" (R53): the fault
`MemoryOutOfRange`, or the rest of the instruction. -/
def withDataRange (len : Nat) (s : State) (body : Host.Outcome State Fault Refusal) : Host.Outcome State Fault Refusal :=
  match rangeFault s.i len with
  | some info => raiseFault .memoryOutOfRange info s
  | none => body

/-- `(V[x] AND 0x0F) * 5`, the glyph of the low nibble (R141); FONT_BASE is 0x000. -/
def glyphAddr (b : Byte) : Word := (b &&& 0x0F#8).setWidth 16 * 5#16

/-- Hundreds, tens, units (R143). -/
def decimalDigits (b : Byte) : List Byte :=
  [BitVec.ofNat 8 (b.toNat / 100), BitVec.ofNat 8 (b.toNat / 10 % 10), BitVec.ofNat 8 (b.toNat % 10)]

/-- The values of V0 to Vx, inclusive (R144). -/
def regsUpTo (x : Nibble) (s : State) : List Byte := s.v.toList.take (x.toNat + 1)

/-- "for i in 0 .. n - 1: V[i] <- MemRead(a + i, 1)" (R145). -/
def loadRegsFrom (a : Nat) : Nat → State → State
  | 0, s => s
  | n + 1, s => (loadRegsFrom a n s).setV (BitVec.ofNat 4 n) (s.readByte (a + n))

/-- `I <- (I + x + 1) mod 65536` (R144, R145). -/
def advanceI (x : Nibble) (s : State) : State := s.setI (s.i + x.setWidth 16 + 1)

/-- `pressed(k)` is `keys[k] != 0` (R168). -/
def State.pressed (s : State) (k : Nibble) : Bool := s.keys[k.toNat]'k.isLt != 0

/-- The key number in `V[x]`: 0 to 15, or none above it (R165, R208). -/
def keyNumber (b : Byte) : Option Nibble := if b.toNat ≤ 15 then some (b.setWidth 4) else none

/-- The fault `KeyIndexOutOfRange(V[x])`, or the rest of the instruction with the key number. -/
def withKey (b : Byte) (s : State) (body : Nibble → Host.Outcome State Fault Refusal) : Host.Outcome State Fault Refusal :=
  match keyNumber b with
  | none => raiseFault .keyIndexOutOfRange (zextByte b) s
  | some k => body k

/-- All key numbers, from 0 upward. -/
def allKeys : List Nibble := [0x0, 0x1, 0x2, 0x3, 0x4, 0x5, 0x6, 0x7, 0x8, 0x9, 0xA, 0xB, 0xC, 0xD, 0xE, 0xF]

/-- "the least such k" of R167, none when no key is pressed. -/
def firstPressed (s : State) : Option Nibble := allKeys.find? s.pressed

end Sys2Proof.Machine
end

