-- ==== Sys2Proof/Machine/Cycle.lean ====
section
/-! DEFINITION. The parts of the Step Driver's cycle around the instruction, `47_step_driver.md` R190 to R199: the halted core, the
fetch checks, fetch, the unknown word, and what follows the instruction. -/

namespace Sys2Proof.Machine

/-- What a cycle finds before it runs an instruction (R190 steps 1 to 6): it ends there in a state, or it has an
instruction to run. -/
inductive Fetched where
  | ends (t : State)
  | runs (i : Instr)
  deriving DecidableEq, Repr

/-- The fetch checks of R191, "the range check comes first". -/
def pcFault (pc : Word) : Option FatalCause :=
  if pc.toNat < 0x200 ∨ 0xFFE < pc.toNat then some .pcOutOfRange
  else if pc.getLsbD 0 then some .pcMisaligned
  else none

/-- The word at `pc` (R190 step 4). -/
def fetchWord (s : State) : Word := s.readWord s.pc.toNat

/-- A halted core: "a cycle does nothing", "no report other than the standing `status`" (R199). -/
def State.haltedCycle (s : State) : State := { s with result := .idle }

/-- `report UnknownInstruction(w)`: no state element changes and `(2, w)` is the cycle's error output (R193,
`60_exceptions.md` R202). -/
def State.reportUnknown (w : Word) (s : State) : State := { s with result := .unknownInstruction w }

/-- R190 steps 2 to 6, for a running core; the priority of `60_exceptions.md` R211. -/
def fetchRunning (s : State) : Fetched :=
  match pcFault s.pc with
  | some cause => .ends (takeFault cause s.pc s)
  | none =>
    match decode (fetchWord s) with
    | .ok i => .runs i
    | .error _ => .ends (s.reportUnknown (fetchWord s))

/-- R190 steps 1 to 6. -/
def fetchStage (s : State) : Fetched :=
  match s.status with
  | .faulted _ _ => .ends s.haltedCycle
  | .running => fetchRunning s

/-- R190 step 9: after an instruction that completed both timers tick; a wait and a fault leave them (R192, R193, R213). -/
def afterExec (t : State) : State :=
  match t.result with
  | .completed => t.tick
  | .idle => t
  | .waitingForKey => t
  | .unknownInstruction _ => t
  | .fatal _ _ => t

/-- The end of the cycle, on the instruction's outcome. -/
def finishCycle : Host.Outcome State Fault Refusal → Host.Outcome State Fault Refusal
  | .next t => .next (afterExec t)
  | .fault r => .fault r
  | .refused r => .refused r

/-- Whether a cycle can fetch in this state: running, and `pc` passes the checks of R191. -/
def State.fetchable (s : State) : Bool := s.status == .running && pcFault s.pc == none

/-- A state in which the next cycle fetches: this one if it can, else this one running at LOAD_BASE. -/
def State.madeFetchable (s : State) : State :=
  if s.fetchable then s else { s with status := .running, pc := 0x0200 }

/-- A word stored where the next cycle fetches, high byte first (R54). -/
def State.placeWord (w : Word) (s : State) : State := storeBytes (bytesOfWord w) s.pc.toNat s

end Sys2Proof.Machine
end

