-- ==== Sys2Proof/Machine/Flags.lean ====
section
/-! DEFINITION. The flag computations (`41_register_ops.md` R126 to R132, `42_memory_ops.md` R142) and the order in which a flag and
a result are written (R131). -/

namespace Sys2Proof.Machine

/-- "VF = 1 iff the 8-bit sum overflows": carry = 1 iff `a + b >= 256` (R126, R132). -/
def carryFlag (a b : Byte) : Bool := decide (255 < a.toNat + b.toNat)

/-- "VF = 1 iff NO borrow occurs": 1 iff `a >= b` for `a - b` (R127, R128, R132). -/
def noBorrowFlag (a b : Byte) : Bool := decide (b.toNat ≤ a.toNat)

/-- The bit a right shift pushes out: the old bit 0 (R129). -/
def lowBitFlag (a : Byte) : Bool := a.getLsbD 0

/-- The bit a left shift pushes out: the old bit 7 (R130). -/
def highBitFlag (a : Byte) : Bool := a.getLsbD 7

/-- "VF set to 1 if the result exceeds address 0xFFF", the sum unbounded (R142). -/
def addressFlag (i : Word) (b : Byte) : Bool := decide (0x0FFF < i.toNat + b.toNat)

/-- The flag write order of R131. `flag` is computed from the operands as they stood when the instruction began; `write` computes
the result from the register file of the state it is given and writes it. `flag_last`: result, then VF. `flag_first`: VF, then
the result "recomputed from the register file after that write". -/
def writeWithFlag (flag : Bool) (write : State → State) (s : State) : State :=
  match s.cfg.vfWriteOrder with
  | .flagLast => (write s).setFlag flag
  | .flagFirst => write (s.setFlag flag)

end Sys2Proof.Machine
end

