-- ==== Sys2Proof/Machine/ControlFlow.lean ====
section
/-! DEFINITION. The eight control-flow instructions, `40_control_flow.md` R100 to R108. -/

namespace Sys2Proof.Machine

/-- JP nnn (R100): `pc <- zext_16(nnn)`. -/
def execJp (nnn : Addr12) (s : State) : Host.Outcome State Fault Refusal :=
  complete s (zextAddr nnn)

/-- CALL nnn (R101). `sp = 16`: `StackOverflow(pc)`; else push `pc + 2`, the address after the call, and jump. -/
def execCall (nnn : Addr12) (s : State) : Host.Outcome State Fault Refusal :=
  if h : s.sp.val < 16 then complete (s.push s.nextPc h) (zextAddr nnn)
  else raiseFault .stackOverflow s.pc s

/-- RET (R102). `sp = 0`: `StackUnderflow(pc)`; else `pc <- stack[sp - 1]`, and the popped entry stays in the array, dead. -/
def execRet (s : State) : Host.Outcome State Fault Refusal :=
  if s.sp.val = 0 then raiseFault .stackUnderflow s.pc s
  else complete s.pop (s.stackAt (s.sp.val - 1))

/-- SE Vx, nn (R103): skip if `V[x] = nn`. -/
def execSeImm (x : Nibble) (nn : Byte) (s : State) : Host.Outcome State Fault Refusal :=
  skipIf (s.getV x == nn) s

/-- SNE Vx, nn (R104): skip if `V[x] != nn`. -/
def execSneImm (x : Nibble) (nn : Byte) (s : State) : Host.Outcome State Fault Refusal :=
  skipIf (s.getV x != nn) s

/-- SE Vx, Vy (R105): skip if `V[x] = V[y]`. -/
def execSeReg (x y : Nibble) (s : State) : Host.Outcome State Fault Refusal :=
  skipIf (s.getV x == s.getV y) s

/-- SNE Vx, Vy (R106): skip if `V[x] != V[y]`. -/
def execSneReg (x y : Nibble) (s : State) : Host.Outcome State Fault Refusal :=
  skipIf (s.getV x != s.getV y) s

/-- JP V0, nnn (R107): `pc <- zext_16(nnn) + zext_16(V[0])`, "not reduced modulo 4096". -/
def execJpV0 (nnn : Addr12) (s : State) : Host.Outcome State Fault Refusal :=
  complete s (zextAddr nnn + zextByte (s.getV 0))

end Sys2Proof.Machine
end

