-- ==== Sys2Proof/Machine/Display.lean ====
section
/-! DEFINITION. The two display instructions, `46_display.md` R180 to R184. -/

namespace Sys2Proof.Machine

/-- CLS (R180): every cell 0, `redrawPending <- 1`. -/
def execCls (s : State) : Host.Outcome State Fault Refusal :=
  completeNext (s.setDisplay 0)

/-- `Cell(px, py)` of R183: the framebuffer cell under a sprite cell, or none. -/
def cellAt (policy : DrawEdgePolicy) (px py : Nat) : Option Nat :=
  match policy with
  | .raw => some (py * 64 + px)
  | .clip => if px ≤ 63 ∧ py ≤ 31 then some (py * 64 + px) else none
  | .wrap => some (py % 32 * 64 + px % 64)

/-- Whether sprite column `c` of a row's byte is set: bit `7 - c`, "bit 7 is the leftmost cell" (R182). -/
def spriteBit (b : Byte) (c : Nat) : Bool := b.getLsbD (7 - c)

/-- The framebuffer cells one sprite row hits, left to right: those under a 1 bit that are a cell (R181). -/
def rowCells (policy : DrawEdgePolicy) (b : Byte) (px py : Nat) : List Nat :=
  (List.range 8).filterMap (fun c => if spriteBit b c then cellAt policy (px + c) py else none)

/-- The framebuffer cells an `n`-row sprite at `I` hits, top row first (R181). -/
def spriteCells (s : State) (vx vy n : Nat) : List Nat :=
  (List.range n).flatMap (fun r => rowCells s.cfg.drawEdge (s.readByte (s.i.toNat + r)) vx (vy + r))

/-- "if fb[t] = 1 then collision <- 1; fb[t] <- fb[t] XOR 1", `fb[t]` "as updated so far in this instruction" (R181). -/
def flipCell (acc : BitVec 2048 × Bool) (t : Nat) : BitVec 2048 × Bool :=
  (acc.1 ^^^ BitVec.twoPow 2048 t, acc.2 || acc.1.getLsbD t)

/-- The framebuffer after a sprite, and whether a cell went from 1 to 0. -/
def drawCells (cells : List Nat) (fb : BitVec 2048) : BitVec 2048 × Bool :=
  cells.foldl flipCell (fb, false)

/-- The highest cell index of the 8 by `n` rectangle under `raw`: `(vy + n - 1) * 64 + vx + 7` (R181, R209). -/
def rectangleEnd (vx vy n : Nat) : Nat := (vy + n - 1) * 64 + vx + 7

/-- Under `raw`, a draw whose rectangle passes the last cell faults "whatever the sprite bits are"; `n = 0` "cannot fault"
(R181, R209). -/
def edgeFault (policy : DrawEdgePolicy) (vx vy n : Nat) : Option Word :=
  match policy with
  | .raw => if 0 < n ∧ fbCells - 1 < rectangleEnd vx vy n then some (BitVec.ofNat 16 (rectangleEnd vx vy n)) else none
  | .clip => none
  | .wrap => none

/-- The fault `FramebufferOutOfRange`, or the rest of the instruction. -/
def withCells (vx vy n : Nat) (s : State) (body : Host.Outcome State Fault Refusal) : Host.Outcome State Fault Refusal :=
  match edgeFault s.cfg.drawEdge vx vy n with
  | some info => raiseFault .framebufferOutOfRange info s
  | none => body

/-- The writes of DRW once both checks have passed: the cells, VF the collision flag, `redrawPending <- 1` (R181). -/
def drawSprite (vx vy n : Nat) (s : State) : State :=
  let drawn := drawCells (spriteCells s vx vy n) s.fb
  (s.setDisplay drawn.1).setFlag drawn.2

/-- DRW Vx, Vy, n (R181): both checks come before any cell is written, "memory first" (R211); `V[x]`, `V[y]` are read before VF is
written. -/
def execDrw (x y n : Nibble) (s : State) : Host.Outcome State Fault Refusal :=
  withDataRange n.toNat s
    (withCells (s.getV x).toNat (s.getV y).toNat n.toNat s
      (completeNext (drawSprite (s.getV x).toNat (s.getV y).toNat n.toNat s)))

end Sys2Proof.Machine
end

