-- ==== Sys2Proof/Machine/Input.lean ====
section
/-! DEFINITION. The three key-input instructions, `44_input.md` R165 to R168. -/

namespace Sys2Proof.Machine

/-- SKP Vx (R165): `KeyIndexOutOfRange` above 15, else skip if the key is pressed. -/
def execSkp (x : Nibble) (s : State) : Host.Outcome State Fault Refusal :=
  withKey (s.getV x) s (fun k => skipIf (s.pressed k) s)

/-- SKNP Vx (R166): `KeyIndexOutOfRange` above 15, else skip if the key is not pressed. -/
def execSknp (x : Nibble) (s : State) : Host.Outcome State Fault Refusal :=
  withKey (s.getV x) s (fun k => skipIf (!s.pressed k) s)

/-- LD Vx, K (R167): the lowest pressed key, or not completed while none is pressed. -/
def execLdKey (x : Nibble) (s : State) : Host.Outcome State Fault Refusal :=
  match firstPressed s with
  | some k => completeNext (s.setV x (k.setWidth 8))
  | none => waitForKey s

end Sys2Proof.Machine
end

