-- ==== Sys2Proof/Machine/MemoryOps.lean ====
section
/-! DEFINITION. The six address-register and memory instructions, `42_memory_ops.md` R140 to R146. -/

namespace Sys2Proof.Machine

/-- LD I, nnn (R140). -/
def execLdI (nnn : Addr12) (s : State) : Host.Outcome State Fault Refusal :=
  completeNext (s.setI (zextAddr nnn))

/-- LD F, Vx (R141). -/
def execLdF (x : Nibble) (s : State) : Host.Outcome State Fault Refusal :=
  completeNext (s.setI (glyphAddr (s.getV x)))

/-- ADD I, Vx (R142): modulo 65536, VF 1 iff the sum exceeds 0xFFF, else 0. -/
def execAddI (x : Nibble) (s : State) : Host.Outcome State Fault Refusal :=
  completeNext (writeWithFlag (addressFlag s.i (s.getV x)) (fun t => t.setI (t.i + zextByte (t.getV x))) s)

/-- LD B, Vx (R143): the decimal digits to `I`, `I + 1`, `I + 2`. -/
def execLdB (x : Nibble) (s : State) : Host.Outcome State Fault Refusal :=
  withDataRange 3 s (completeNext (storeBytes (decimalDigits (s.getV x)) s.i.toNat s))

/-- LD [I], Vx (R144): V0 to Vx to memory at `I`, then `I` advances by `x + 1`. -/
def execStoreRegs (x : Nibble) (s : State) : Host.Outcome State Fault Refusal :=
  withDataRange (x.toNat + 1) s (completeNext (advanceI x (storeBytes (regsUpTo x s) s.i.toNat s)))

/-- LD Vx, [I] (R145): V0 to Vx from memory at `I`, then `I` advances by `x + 1`. -/
def execLoadRegs (x : Nibble) (s : State) : Host.Outcome State Fault Refusal :=
  withDataRange (x.toNat + 1) s (completeNext (advanceI x (loadRegsFrom s.i.toNat (x.toNat + 1) s)))

end Sys2Proof.Machine
end

