-- ==== Sys2Proof/Machine/Random.lean ====
section
/-! DEFINITION. The random-number instruction, `43_random.md` R160, R161. -/

namespace Sys2Proof.Machine

/-- RND Vx, nn for a given drawn byte: `V[x] <- r AND nn` (R160). -/
def rndWith (r : Byte) (x : Nibble) (nn : Byte) (s : State) : Host.Outcome State Fault Refusal :=
  completeNext (s.setV x (r &&& nn))

/-- RND Vx, nn (R160): "exactly one byte is drawn per execution". The byte is a free value (log entry 3). -/
def execRnd (x : Nibble) (nn : Byte) (s : State) : Host.Outcome State Fault Refusal :=
  rndWith s.drawnByte x nn s.afterDraw

end Sys2Proof.Machine
end

