-- ==== Sys2Proof/Machine/RegisterOps.lean ====
section
/-! DEFINITION. The eleven register and ALU instructions, `41_register_ops.md` R120 to R133. All set `pc <- pc + 2`. -/

namespace Sys2Proof.Machine

/-- LD Vx, nn (R120). -/
def execLdImm (x : Nibble) (nn : Byte) (s : State) : Host.Outcome State Fault Refusal :=
  completeNext (s.setV x nn)

/-- ADD Vx, nn (R121): modulo 256, no flag. -/
def execAddImm (x : Nibble) (nn : Byte) (s : State) : Host.Outcome State Fault Refusal :=
  completeNext (s.setV x (s.getV x + nn))

/-- LD Vx, Vy (R122). -/
def execLdReg (x y : Nibble) (s : State) : Host.Outcome State Fault Refusal :=
  completeNext (s.setV x (s.getV y))

/-- OR Vx, Vy (R123); VF is not changed. -/
def execOr (x y : Nibble) (s : State) : Host.Outcome State Fault Refusal :=
  completeNext (s.setV x (s.getV x ||| s.getV y))

/-- AND Vx, Vy (R124); VF is not changed. -/
def execAnd (x y : Nibble) (s : State) : Host.Outcome State Fault Refusal :=
  completeNext (s.setV x (s.getV x &&& s.getV y))

/-- XOR Vx, Vy (R125); VF is not changed. -/
def execXor (x y : Nibble) (s : State) : Host.Outcome State Fault Refusal :=
  completeNext (s.setV x (s.getV x ^^^ s.getV y))

/-- ADD Vx, Vy (R126): the sum modulo 256, VF the carry. -/
def execAddReg (x y : Nibble) (s : State) : Host.Outcome State Fault Refusal :=
  completeNext (writeWithFlag (carryFlag (s.getV x) (s.getV y)) (fun t => t.setV x (t.getV x + t.getV y)) s)

/-- SUB Vx, Vy (R127): `V[x] - V[y]` modulo 256, VF 1 iff no borrow. -/
def execSub (x y : Nibble) (s : State) : Host.Outcome State Fault Refusal :=
  completeNext (writeWithFlag (noBorrowFlag (s.getV x) (s.getV y)) (fun t => t.setV x (t.getV x - t.getV y)) s)

/-- SUBN Vx, Vy (R128): `V[y] - V[x]` modulo 256, VF 1 iff no borrow. -/
def execSubn (x y : Nibble) (s : State) : Host.Outcome State Fault Refusal :=
  completeNext (writeWithFlag (noBorrowFlag (s.getV y) (s.getV x)) (fun t => t.setV x (t.getV y - t.getV x)) s)

/-- SHR Vx (R129): logical, by one; `y` is ignored (R78). -/
def execShr (x _y : Nibble) (s : State) : Host.Outcome State Fault Refusal :=
  completeNext (writeWithFlag (lowBitFlag (s.getV x)) (fun t => t.setV x (t.getV x >>> 1)) s)

/-- SHL Vx (R130): by one; `y` is ignored (R78). -/
def execShl (x _y : Nibble) (s : State) : Host.Outcome State Fault Refusal :=
  completeNext (writeWithFlag (highBitFlag (s.getV x)) (fun t => t.setV x (t.getV x <<< 1)) s)

end Sys2Proof.Machine
end

