-- ==== Sys2Proof/Machine/Timers.lean ====
section
/-! DEFINITION. The three timer instructions, `45_timers.md` R175 to R177. The cycle's decrement comes after them, in the step
(`47_step_driver.md` R192). -/

namespace Sys2Proof.Machine

/-- LD Vx, DT (R175). -/
def execLdFromDT (x : Nibble) (s : State) : Host.Outcome State Fault Refusal :=
  completeNext (s.setV x s.dt)

/-- LD DT, Vx (R176). -/
def execLdDT (x : Nibble) (s : State) : Host.Outcome State Fault Refusal :=
  completeNext (s.setDT (s.getV x))

/-- LD ST, Vx (R177). -/
def execLdST (x : Nibble) (s : State) : Host.Outcome State Fault Refusal :=
  completeNext (s.setST (s.getV x))

end Sys2Proof.Machine
end

