-- ==== Sys2Proof/Machine/Step.lean ====
section
/-! DEFINITION. One cycle of the core (`47_step_driver.md` R190), and a word placed where the next cycle fetches. -/

namespace Sys2Proof.Machine

/-- `Cycle()` of R190: fetch, decode, execute, then the timers. -/
def step (s : State) : Host.Outcome State Fault Refusal :=
  match fetchStage s with
  | .ends t => .next t
  | .runs i => finishCycle (exec i s)

/-- `s` with the instruction of a table row stored where `step` fetches. Nothing else changes when the core can fetch; a halted core,
or one whose `pc` cannot be fetched from, is set running at LOAD_BASE first (log entry 20). -/
def State.withFetchWord (s : State) (nbits w : Nat) : State :=
  s.madeFetchable.placeWord (tableWord nbits w)

end Sys2Proof.Machine
end

