-- ==== Sys2Proof/Machine/HostOps.lean ====
section
/-! DEFINITION. What the host can do to the machine between two cycles: `47_step_driver.md` R195, R197, `60_exceptions.md` R202, R219 to R221,
`70_reset_and_hazards.md` R230 to R234, `92_eei_decisions.md` D1. -/

namespace Sys2Proof.Machine

/-- The refusal of `load`, with its `info`: the image length "saturated at 0xFFFF" (`60_exceptions.md` R200, R201). -/
inductive LoadError where
  | imageTooLarge (info : Word)
  deriving DecidableEq, Repr

/-- The code of a refusal of `load` (R200; the numbers are the spec's decision D15, log entry 28). Codes 3 to 9 are `FatalCause.code`, code 2
stands in `State.err`. -/
def LoadError.code : LoadError → Nat
  | .imageTooLarge _ => 1

/-- `load(image)` (R232): more than 3584 bytes is `ImageTooLarge` and nothing is written; else the bytes go verbatim to LOAD_BASE
upward. "No side effects beyond the memory write." -/
def State.load (image : List Byte) (s : State) : Except LoadError State :=
  if imageFits image then .ok (storeBytes image loadBase s)
  else .error (.imageTooLarge (BitVec.ofNat 16 (min image.length 0xFFFF)))

/-- `set_key(k, 0 or 1)`: key up or key down (`10_state.md` R32). -/
def State.setKey (k : Nibble) (down : Bool) (s : State) : State :=
  { s with keys := s.keys.set k.toNat (if down then 1 else 0) k.isLt }

/-- `present_done` (R195): the host has consumed the framebuffer. -/
def State.presentDone (s : State) : State := { s with redrawPending := false }

/-- The host's policy after an unknown instruction (R202): under `skip` it performs `pc <- pc + 2`, "with no timer decrement", and has
then acted on the report; under `halt`, or when no unknown instruction is reported, it does nothing to the state. -/
def State.afterUnknown (s : State) : State :=
  match s.result, s.cfg.unknownPolicy with
  | .unknownInstruction _, .skip => { s with pc := s.pc + 2, result := .idle }
  | _, _ => s

/-- Whether the host invokes a further cycle: not after an unknown instruction under `halt` (R202). A halted core may be invoked, and does
nothing (R199). -/
def State.hostContinues (s : State) : Bool :=
  match s.result, s.cfg.unknownPolicy with
  | .unknownInstruction _, .halt => false
  | _, _ => true

/-- The host's actions on a running machine (R197): each happens between two cycles. `initialize` and `load` start a new run. -/
inductive HostAction where
  | setKey (k : Nibble) (down : Bool)
  | presentDone
  | afterUnknown
  deriving DecidableEq, Repr

/-- One host action. It acts on a HALTED core as on a running one: whether the host may still write a key slot or perform `present_done`
then, the spec leaves open (`47_step_driver.md` R197, R199, `10_state.md` R34), and this is the model's choice (DESIGN CHOICE, log
entry 30). `status` stays latched. -/
def hostAct (a : HostAction) (s : State) : State :=
  match a with
  | .setKey k down => s.setKey k down
  | .presentDone => s.presentDone
  | .afterUnknown => s.afterUnknown

/-- The boot order of R234: `initialize`, then `load`, which must return `Ok` before any cycle runs. -/
def State.boot (image : List Byte) (s : State) : Except LoadError State := s.initialize.load image

/-- One round of the Frame Loop (R234): the host's actions, in order, and then one cycle. -/
def frameRound (actions : List HostAction) (s : State) : Host.Outcome State Fault Refusal :=
  step (actions.foldl (fun t a => hostAct a t) s)

end Sys2Proof.Machine
end

