-- ==== Sys2Proof/Safety.lean ====
section
/-! DEFINITION. The terms claims about runs use: what the core may look like between two cycles, and when a program has finished. -/

namespace Sys2Proof.Machine

/-- No fatal fault has been latched (`10_state.md` R34). -/
def State.safe (s : State) : Prop := s.status = .running

/-- A fatal fault is latched. -/
def State.halted (s : State) : Prop := ∃ c info, s.status = .faulted c info

/-- A program has FINISHED (`47_step_driver.md` R198): running, and the word at `pc` is a jump to itself. The `pc` must be one the core
fetches from, since R198 goes on "from that state on every cycle completes" (DEDUCED, log entry 23). -/
def State.finished (s : State) : Prop :=
  s.fetchable = true ∧ ∃ nnn, decode (fetchWord s) = .ok (.jp nnn) ∧ zextAddr nnn = s.pc

/-- WaitingForKey (`10_state.md` R35): "the word at `pc` is `Fx0A` and no key is pressed". That the core can fetch the word (running, `pc` in
range and even) is a condition of the model, which R35 does not name: a core that cannot fetch does not wait, and its next cycle is not
a key wait (DEDUCED, log entry 31). -/
def State.waiting (s : State) : Prop :=
  s.fetchable = true ∧ (∃ x, decode (fetchWord s) = .ok (.ldKey x)) ∧ ∀ k, s.pressed k = false

/-- Stuck on an unknown word (`47_step_driver.md` R193). -/
def State.stuckOnUnknown (s : State) : Prop :=
  s.fetchable = true ∧ decode (fetchWord s) = .error (.unknownInstruction (fetchWord s))

/-- A live stack entry (index below `sp`) as `CALL` can have pushed it: even, 0x202 to 0x1000 (`40_control_flow.md` R102). -/
def State.stackSound (s : State) : Prop :=
  ∀ k : Nat, k < s.sp.val →
    (s.stackAt k).toNat % 2 = 0 ∧ 0x202 ≤ (s.stackAt k).toNat ∧ (s.stackAt k).toNat ≤ 0x1000

/-- "The largest value any rule can write is ... 0x10FE" (`10_state.md` R25). -/
def State.pcBounded (s : State) : Prop := s.pc.toNat ≤ 0x10FE

/-- A standing report of an unknown instruction is about the word at `pc`, and the core is running (`47_step_driver.md` R193); a standing
report of a fatal fault is the latched one (`60_exceptions.md` R210). -/
def State.reportSound (s : State) : Prop :=
  (∀ w, s.result = .unknownInstruction w → s.fetchable = true ∧ fetchWord s = w) ∧
    ∀ c info, s.result = .fatal c info → s.status = .faulted c info

/-- What holds between any two cycles of a run: memory in canonical form, `pc` and the live stack entries in the ranges
R25 and R102 derive, the standing report true. -/
structure State.Inv (s : State) : Prop where
  memory : s.mem.wf s.cfg.font
  pc : s.pcBounded
  stack : s.stackSound
  report : s.reportSound

/-! ### Frames: what is the same in two states -/

/-- All sixteen registers. -/
def sameRegs (s t : State) : Prop := ∀ r, t.getV r = s.getV r

/-- Every byte of memory, through the model's read of one byte. -/
def sameMemory (s t : State) : Prop := ∀ a, t.readByte a = s.readByte a

/-- The call stack. -/
def sameStack (s t : State) : Prop := t.stack = s.stack ∧ t.sp = s.sp

/-- Both timers. -/
def sameTimers (s t : State) : Prop := t.dt = s.dt ∧ t.st = s.st

/-- The framebuffer and the redraw signal. -/
def sameDisplay (s t : State) : Prop := t.fb = s.fb ∧ t.redrawPending = s.redrawPending

/-- The key slots, the status element, the open parameters. -/
def sameControl (s t : State) : Prop := t.keys = s.keys ∧ t.status = s.status ∧ t.cfg = s.cfg

/-- Everything but the registers, `I`, memory, `pc` and the cycle's outcome. -/
def sameMachine (s t : State) : Prop :=
  sameStack s t ∧ sameTimers s t ∧ sameDisplay s t ∧ sameControl s t ∧ t.draws = s.draws

/-- Everything but the registers, `pc` and the cycle's outcome. -/
def sameButRegs (s t : State) : Prop := t.i = s.i ∧ sameMemory s t ∧ sameMachine s t

/-- Everything but `pc` and the cycle's outcome. -/
def sameButPc (s t : State) : Prop := sameRegs s t ∧ sameButRegs s t

/-- A sprite's 1 bit lies on cell `k` (`46_display.md` R181): row `r` of the `n` rows read at `I`, column `c`, bit `7 - c` set. -/
def spriteHits (s : State) (vx vy n k : Nat) : Prop :=
  ∃ r c, r < n ∧ c < 8 ∧ (s.readByte (s.i.toNat + r)).getLsbD (7 - c) = true ∧
    cellAt s.cfg.drawEdge (vx + c) (vy + r) = some k

/-- DRW does not fault: its bytes lie in memory, and under `raw` its rectangle lies in the framebuffer (R181). -/
def drawFits (s : State) (x y n : Nibble) : Prop :=
  n.toNat = 0 ∨ (s.i.toNat + n.toNat ≤ 0x1000 ∧
    (s.cfg.drawEdge = .raw → ((s.getV y).toNat + n.toNat - 1) * 64 + (s.getV x).toNat + 7 ≤ 2047))

/-- Register `r` as a number, once the flag has been written to VF and nothing else has (`41_register_ops.md` R131, `flag_first`). -/
def afterFlag (s : State) (flag : Bool) (r : Nibble) : Nat :=
  if r = 0xF then (if flag then 1 else 0) else (s.getV r).toNat

/-- The state with a choice of VF_WRITE_ORDER. -/
def State.withOrder (s : State) (order : VfWriteOrder) : State := { s with cfg := { s.cfg with vfWriteOrder := order } }

/-- An instruction does the same under both write orders of R131: the two next states differ in the parameter alone. -/
def ordersAgree (i : Instr) (s : State) : Prop :=
  ∃ t, exec i (s.withOrder .flagLast) = .next t ∧ exec i (s.withOrder .flagFirst) = .next (t.withOrder .flagFirst)

/-! ### Which registers an instruction may write (`10_state.md` R22, R41) -/

/-- The instructions that write VF as a flag: exactly seven (`41_register_ops.md` R133). -/
def Instr.writesFlag : Instr → Bool
  | .addReg _ _ | .sub _ _ | .subn _ _ | .shr _ _ | .shl _ _ | .addI _ | .drw _ _ _ => true
  | .jp _ | .call _ | .ret | .seImm _ _ | .sneImm _ _ | .seReg _ _ | .sneReg _ _ | .jpV0 _ => false
  | .ldImm _ _ | .addImm _ _ | .ldReg _ _ | .or _ _ | .and _ _ | .xor _ _ => false
  | .ldI _ | .ldF _ | .ldB _ | .storeRegs _ | .loadRegs _ | .rnd _ _ => false
  | .skp _ | .sknp _ | .ldKey _ | .ldFromDT _ | .ldDT _ | .ldST _ | .cls => false

/-- The destination registers of an instruction: `Vx`, or V0 to Vx for the bulk load, or none. -/
def Instr.isDestination : Instr → Nibble → Bool
  | .ldImm x _, r | .addImm x _, r | .ldReg x _, r | .or x _, r | .and x _, r | .xor x _, r => r == x
  | .addReg x _, r | .sub x _, r | .subn x _, r | .shr x _, r | .shl x _, r => r == x
  | .rnd x _, r | .ldKey x, r | .ldFromDT x, r => r == x
  | .loadRegs x, r => decide (r.toNat ≤ x.toNat)
  | .jp _, _ | .call _, _ | .ret, _ | .seImm _ _, _ | .sneImm _ _, _ | .seReg _ _, _ | .sneReg _ _, _ | .jpV0 _, _ => false
  | .ldI _, _ | .ldF _, _ | .addI _, _ | .ldB _, _ | .storeRegs _, _ => false
  | .skp _, _ | .sknp _, _ | .ldDT _, _ | .ldST _, _ | .cls, _ | .drw _ _ _, _ => false

end Sys2Proof.Machine
end

