-- ==== Sys2Proof/Certificates/Slice0/Obligations.lean ====
section
/-! DEFINITION. The statements for the provers, one def per obligation, in the order of OBLIGATIONS.json. Each docstring names the rule
of spec/ it formalises. -/

open Sys2Proof Sys2Proof.Machine

/-! ### Encoding -/

/-- Every instruction, with every operand at every value, decodes from its own word, and from its own two bytes whatever follows them
(R71, R74, R82).
The opcode numbers are the spec's general knowledge (R75, D2, log entry 7). -/
def Obligations.DecodeOfEncodeIsTheInstruction : Prop :=
  (∀ i : Instr, decode (encode i) = .ok i) ∧
    ∀ (i : Instr) (rest : List Byte), decodeBytes (encodeBytes i ++ rest) = .ok (i, rest)

/-- A word that decodes is the word of the instruction it decodes to: no bit of an instruction word is dropped (R71, R78).
The opcode numbers are the spec's general knowledge (R75, D2, log entry 7). -/
def Obligations.EncodeOfDecodeIsTheWord : Prop :=
  ∀ (w : Word) (i : Instr), decode w = .ok i → encode i = w

/-- R76: a word selects a row iff `w AND mask = match`, no two rows overlap, the decoder gives an instruction of the row, and a word
that selects no row is unknown.
The opcode numbers are the spec's general knowledge (R75, D2, log entry 7) and strict matching is its decision D3 (log entry 8). -/
def Obligations.DecodeFollowsTheOpcodeMap : Prop :=
  (∀ (w : Word) (i : Instr), decode w = .ok i → w &&& i.row.mask = i.row.value) ∧
  (∀ (w : Word) (i : Instr), w &&& i.row.mask = i.row.value → ∃ j, decode w = .ok j ∧ j.row = i.row) ∧
  (∀ (w : Word) (i j : Instr), w &&& i.row.mask = i.row.value → w &&& j.row.mask = j.row.value → i.row = j.row) ∧
  ∀ w : Word, (∀ i : Instr, w &&& i.row.mask ≠ i.row.value) → decode w = .error (.unknownInstruction w)

/-- The list of unknown words of R77, read by its fields.
Strict matching and no machine-code call are the spec's decisions D3, D4 (log entry 8), the opcode and sub-opcode numbers its general
knowledge (R75, D2, log entry 7). -/
def Obligations.UnknownWordsAreTheListedOnes : Prop :=
  ∀ w : Word, decode w = .error (.unknownInstruction w) ↔
    ((fieldOp w = 0x0 ∧ w ≠ 0x00E0 ∧ w ≠ 0x00EE) ∨
     ((fieldOp w = 0x5 ∨ fieldOp w = 0x9) ∧ fieldN w ≠ 0x0) ∨
     (fieldOp w = 0x8 ∧ fieldN w ∈ [0x8, 0x9, 0xA, 0xB, 0xC, 0xD, 0xF]) ∨
     (fieldOp w = 0xE ∧ fieldNN w ≠ 0x9E ∧ fieldNN w ≠ 0xA1) ∨
     (fieldOp w = 0xF ∧ fieldNN w ∉ [0x07, 0x0A, 0x15, 0x18, 0x1E, 0x29, 0x33, 0x55, 0x65]))

/-- R82: a word from its fields, in every format the inverse of reading its fields (both ways round); its bytes; the source's example. -/
def Obligations.WordsAreAssembledFromTheirFields : Prop :=
  (∀ op x y n : Nibble, (formXYN op x y n).toNat = op.toNat * 4096 + x.toNat * 256 + y.toNat * 16 + n.toNat) ∧
  (∀ (op x : Nibble) (nn : Byte), (formXNN op x nn).toNat = op.toNat * 4096 + x.toNat * 256 + nn.toNat) ∧
  (∀ (op : Nibble) (nnn : Addr12), (formNNN op nnn).toNat = op.toNat * 4096 + nnn.toNat) ∧
  (∀ w : Word, bytesOfWord w = [BitVec.ofNat 8 (w.toNat / 256), BitVec.ofNat 8 (w.toNat % 256)]) ∧
  (∀ op x y n : Nibble, fieldOp (formXYN op x y n) = op ∧ fieldX (formXYN op x y n) = x ∧
    fieldY (formXYN op x y n) = y ∧ fieldN (formXYN op x y n) = n) ∧
  (∀ (op x : Nibble) (nn : Byte), fieldOp (formXNN op x nn) = op ∧ fieldX (formXNN op x nn) = x ∧ fieldNN (formXNN op x nn) = nn) ∧
  (∀ (op : Nibble) (nnn : Addr12), fieldOp (formNNN op nnn) = op ∧ fieldNNN (formNNN op nnn) = nnn) ∧
  (∀ w : Word, formXYN (fieldOp w) (fieldX w) (fieldY w) (fieldN w) = w ∧ formXNN (fieldOp w) (fieldX w) (fieldNN w) = w ∧
    formNNN (fieldOp w) (fieldNNN w) = w) ∧
  encode (.ldImm 1 5) = 0x6105 ∧ encodeBytes (.ldImm 1 5) = [0x61, 0x05]

/-- One word of each family, written out from R76, decodes to the instruction it stands for.
The opcode numbers are the spec's general knowledge (R75, D2, log entry 7). -/
def Obligations.SampleWordsDecode : Prop :=
  decode 0b0001_0010_0011_0100 = .ok (.jp 0x234) ∧
  decode 0b0000_0000_1110_1110 = .ok .ret ∧
  decode 0b0110_0001_0000_0101 = .ok (.ldImm 0x1 0x05) ∧
  decode 0b1000_0001_0010_0100 = .ok (.addReg 0x1 0x2) ∧
  decode 0b1111_0001_0101_0101 = .ok (.storeRegs 0x1) ∧
  decode 0b1100_0011_0000_1111 = .ok (.rnd 0x3 0x0F) ∧
  decode 0b1110_0001_1001_1110 = .ok (.skp 0x1) ∧
  decode 0b1111_0011_0000_0111 = .ok (.ldFromDT 0x3) ∧
  decode 0b1101_0001_0010_0101 = .ok (.drw 0x1 0x2 0x5)

/-! ### The cycle -/

/-- R190: when the core runs, `pc` passes the checks and the two bytes at `pc` decode to `i`, the cycle is `exec i`, and on an
instruction that completed both timers then count down, floor at 0.
The place of the decrement is the spec's decision D24 (log entry 16), the checks on `pc` its D5, D6 (log entry 9). -/
def Obligations.StepRunsTheDecodedInstruction : Prop :=
  ∀ (s : State) (i : Instr), s.status = .running → 0x200 ≤ s.pc.toNat → s.pc.toNat ≤ 0xFFE → s.pc.toNat % 2 = 0 →
    decodeBytes [s.readByte s.pc.toNat, s.readByte (s.pc.toNat + 1)] = .ok (i, []) →
    step s = match exec i s with
      | .next t => .next (if t.result = .completed then
          { t with dt := (if t.dt = 0 then 0 else t.dt - 1), st := (if t.st = 0 then 0 else t.st - 1) } else t)
      | .fault r => .fault r
      | .refused r => .refused r

/-- A word placed where the next cycle fetches is the instruction the next cycle runs, from every state (R54, R61).
What happens from a state that cannot fetch is the model's choice (log entry 20). -/
def Obligations.PlacedWordIsRunNext : Prop :=
  ∀ (s : State) (w : Word) (i : Instr), decode w = .ok i →
    step (s.withFetchWord 16 w.toNat) = finishCycle (exec i (s.withFetchWord 16 w.toNat)) ∧
    (s.fetchable = true → (s.withFetchWord 16 w.toNat).pc = s.pc ∧ sameRegs s (s.withFetchWord 16 w.toNat) ∧
      ∀ a, a ≠ s.pc.toNat → a ≠ s.pc.toNat + 1 → (s.withFetchWord 16 w.toNat).readByte a = s.readByte a)

/-- R191: the two fetch faults, the range check first; nothing changes but `status` (and the report).
That these are fatal faults is the spec's decisions D5, D6, D14, the latched status its D13 (log entries 9, 28, 1). -/
def Obligations.FetchChecksFault : Prop :=
  ∀ s : State, s.status = .running →
    ((s.pc.toNat < 0x200 ∨ 0xFFE < s.pc.toNat) →
      step s = .next { s with status := .faulted .pcOutOfRange s.pc, result := .fatal .pcOutOfRange s.pc }) ∧
    (0x200 ≤ s.pc.toNat → s.pc.toNat ≤ 0xFFE → s.pc.toNat % 2 = 1 →
      step s = .next { s with status := .faulted .pcMisaligned s.pc, result := .fatal .pcMisaligned s.pc })

/-- R193: in a cycle that does not complete no state element changes; an unknown word is reported, a key wait is not, and the next
cycle does the same again. -/
def Obligations.NotCompletedChangesNothing : Prop :=
  (∀ s : State, s.fetchable = true → ∀ w, w = fetchWord s → decode w = .error (.unknownInstruction w) →
    step s = .next { s with result := .unknownInstruction w } ∧
    step { s with result := .unknownInstruction w } = .next { s with result := .unknownInstruction w }) ∧
  ∀ (s : State) (x : Nibble), s.fetchable = true → decode (fetchWord s) = .ok (.ldKey x) → (∀ k, s.pressed k = false) →
    step s = .next { s with result := .waitingForKey } ∧
    ({ s with result := .waitingForKey } : State).err = none ∧
    step { s with result := .waitingForKey } = .next { s with result := .waitingForKey }

/-- R199: a halted core does nothing, reports nothing but the standing `status`, and `initialize` restarts it.
The latched status is the spec's decision D13 (log entry 1), the outcome `idle` the model's (log entry 2). -/
def Obligations.HaltedCoreDoesNothing : Prop :=
  ∀ (s : State) (c : FatalCause) (info : Word), s.status = .faulted c info →
    step s = .next { s with result := .idle } ∧ ({ s with result := .idle } : State).err = none ∧
    s.initialize.status = .running

/-- R190, R13: every cycle of every state ends in a next state, and its outcome is one of the four of R13, or the core was halted. R210: what
the cycle presents as `err`: nothing, `(2, w)`, or the code of the cause just latched with its info; R200: the seven codes.
The latched status and the codes are the spec's decisions D13, D15 (log entries 1, 28), the outcome `idle` the model's (log entry 2). -/
def Obligations.EveryCycleEndsInOneOutcome : Prop :=
  (∀ s : State, ∃ t, step s = .next t ∧
    ((t.result = .idle ∧ ∃ c info, s.status = .faulted c info) ∨
     (s.status = .running ∧ (t.result = .completed ∨ t.result = .waitingForKey ∨
        (∃ w, t.result = .unknownInstruction w) ∨ ∃ c info, t.result = .fatal c info ∧ t.status = .faulted c info))) ∧
    (∀ w, t.result = .unknownInstruction w → t.err = some (2, w)) ∧
    (∀ c info, t.result = .fatal c info → t.err = some (c.code, info)) ∧
    (t.result = .completed ∨ t.result = .waitingForKey ∨ t.result = .idle → t.err = none)) ∧
  FatalCause.code .stackOverflow = 3 ∧ FatalCause.code .stackUnderflow = 4 ∧ FatalCause.code .pcOutOfRange = 5 ∧
  FatalCause.code .pcMisaligned = 6 ∧ FatalCause.code .memoryOutOfRange = 7 ∧ FatalCause.code .keyIndexOutOfRange = 8 ∧
  FatalCause.code .framebufferOutOfRange = 9

/-- R213: a cycle that faults writes `status` and nothing else (the report aside); every other cycle leaves `status`.
The latched, precise fault is the spec's decision D13 (log entry 1). -/
def Obligations.FaultEntryWritesStatusAlone : Prop :=
  ∀ s t : State, step s = .next t → t.status ≠ s.status →
    s.status = .running ∧ ∃ c info, t = { s with status := .faulted c info, result := .fatal c info }

/-- R28, R192, R217: in a completed cycle each timer counts down by one, floor at 0, after the instruction's own write of it; in every other
cycle both stand still.
The decrement after the instruction's own write is the spec's decision D24 (log entry 16). -/
def Obligations.TimersCountCompletedCycles : Prop :=
  ∀ s t : State, step s = .next t →
    (t.result ≠ .completed → sameTimers s t) ∧
    (t.result = .completed →
      ((∀ x, decode (fetchWord s) ≠ .ok (.ldDT x)) → t.dt.toNat = s.dt.toNat - 1) ∧
      ((∀ x, decode (fetchWord s) ≠ .ok (.ldST x)) → t.st.toNat = s.st.toNat - 1) ∧
      (∀ x, decode (fetchWord s) = .ok (.ldDT x) → t.dt.toNat = (s.getV x).toNat - 1) ∧
      ∀ x, decode (fetchWord s) = .ok (.ldST x) → t.st.toNat = (s.getV x).toNat - 1)

/-- R198: a finished program stays finished; every cycle completes and changes nothing but the timers (and the outcome's report).
The end of a run is the spec's decision D23; that `pc` can be fetched from is DEDUCED (log entry 23). -/
def Obligations.FinishedProgramStaysFinished : Prop :=
  ∀ s : State, s.finished →
    ∃ t, step s = .next t ∧ t.finished ∧ t.result = .completed ∧ t.pc = s.pc ∧ sameRegs s t ∧ t.i = s.i ∧ sameMemory s t ∧
      sameStack s t ∧ sameDisplay s t ∧ sameControl s t ∧ t.draws = s.draws ∧
      t.dt.toNat = s.dt.toNat - 1 ∧ t.st.toNat = s.st.toNat - 1

/-! ### Control flow -/

/-- R100: JP nnn.
The opcode numbers are the spec's general knowledge (R75, D2, log entry 7). -/
def Obligations.JpSetsPc : Prop :=
  (∀ w : Word, w &&& 0xF000 = 0x1000 → decode w = .ok (.jp (fieldNNN w))) ∧
  ∀ (nnn : Addr12) (s : State), ∃ t, exec (.jp nnn) s = .next t ∧
    t.pc.toNat = nnn.toNat ∧ t.result = .completed ∧ sameButPc s t

/-- R107: JP V0, nnn; the sum is not reduced.
That the sum is not reduced is its decision D5 (log entry 9). The opcode numbers are the spec's general knowledge (R75, D2, log entry 7). -/
def Obligations.JpV0SetsPcToTheSum : Prop :=
  (∀ w : Word, w &&& 0xF000 = 0xB000 → decode w = .ok (.jpV0 (fieldNNN w))) ∧
  ∀ (nnn : Addr12) (s : State), ∃ t, exec (.jpV0 nnn) s = .next t ∧
    t.pc.toNat = nnn.toNat + (s.getV 0x0).toNat ∧ t.result = .completed ∧ sameButPc s t

/-- R101: CALL nnn below the stack's capacity.
What an entry holds is its decision D12 (log entry 26). The opcode numbers are the spec's general knowledge (R75, D2, log entry 7). -/
def Obligations.CallPushesTheNextAddress : Prop :=
  (∀ w : Word, w &&& 0xF000 = 0x2000 → decode w = .ok (.call (fieldNNN w))) ∧
  ∀ (nnn : Addr12) (s : State), s.sp.val < 16 → ∃ t, exec (.call nnn) s = .next t ∧
    t.stack.toList = s.stack.toList.set s.sp.val (s.pc + 2) ∧ t.sp.val = s.sp.val + 1 ∧ t.pc.toNat = nnn.toNat ∧
    t.result = .completed ∧ sameRegs s t ∧ t.i = s.i ∧ sameMemory s t ∧ sameTimers s t ∧ sameDisplay s t ∧ sameControl s t ∧
    t.draws = s.draws

/-- R102: RET on a stack that is not empty; the popped entry stays in the array.
What an entry holds is its decision D12 (log entry 26). The opcode numbers are the spec's general knowledge (R75, D2, log entry 7). -/
def Obligations.RetPopsPc : Prop :=
  decode 0x00EE = .ok .ret ∧
  ∀ s : State, 0 < s.sp.val → ∃ t, exec .ret s = .next t ∧
    some t.pc = s.stack.toList[s.sp.val - 1]? ∧ t.sp.val + 1 = s.sp.val ∧ t.stack = s.stack ∧
    t.result = .completed ∧ sameRegs s t ∧ t.i = s.i ∧ sameMemory s t ∧ sameTimers s t ∧ sameDisplay s t ∧ sameControl s t ∧
    t.draws = s.draws

/-- R203, R204: the 17th nested CALL and a RET on an empty stack are fatal and change nothing but `status`.
The latched status is the spec's decision D13 (log entry 1). -/
def Obligations.StackFaults : Prop :=
  (∀ (nnn : Addr12) (s : State), s.sp.val = 16 → exec (.call nnn) s =
    .next { s with status := .faulted .stackOverflow s.pc, result := .fatal .stackOverflow s.pc }) ∧
  ∀ s : State, s.sp.val = 0 → exec .ret s =
    .next { s with status := .faulted .stackUnderflow s.pc, result := .fatal .stackUnderflow s.pc }

/-- The source's property S6: a RET that finds the stack as the CALL left it restores `pc` to the address following the call, at every one
of the 16 depths, and leaves every live entry below it.
What an entry holds is the spec's decision D12 (log entry 26). -/
def Obligations.RetUndoesCall : Prop :=
  ∀ (nnn : Addr12) (s t u : State), s.sp.val < 16 → exec (.call nnn) s = .next t → sameStack t u →
    ∃ v, exec .ret u = .next v ∧ v.pc = s.pc + 2 ∧ v.sp = s.sp ∧
      ∀ k : Nat, k < s.sp.val → v.stack.toList[k]? = s.stack.toList[k]?

/-- R103, R104: the skips that compare a register with an immediate.
The opcode numbers are the spec's general knowledge (R75, D2, log entry 7). -/
def Obligations.ImmediateSkips : Prop :=
  (∀ w : Word, w &&& 0xF000 = 0x3000 → decode w = .ok (.seImm (fieldX w) (fieldNN w))) ∧
  (∀ w : Word, w &&& 0xF000 = 0x4000 → decode w = .ok (.sneImm (fieldX w) (fieldNN w))) ∧
  ∀ (x : Nibble) (nn : Byte) (s : State),
    (∃ t, exec (.seImm x nn) s = .next t ∧
      t.pc = (if s.getV x = nn then s.pc + 4 else s.pc + 2) ∧ t.result = .completed ∧ sameButPc s t) ∧
    ∃ t, exec (.sneImm x nn) s = .next t ∧
      t.pc = (if s.getV x = nn then s.pc + 2 else s.pc + 4) ∧ t.result = .completed ∧ sameButPc s t

/-- R105, R106: the skips that compare two registers.
The opcode numbers are the spec's general knowledge (R75, D2, log entry 7). -/
def Obligations.RegisterSkips : Prop :=
  (∀ w : Word, w &&& 0xF00F = 0x5000 → decode w = .ok (.seReg (fieldX w) (fieldY w))) ∧
  (∀ w : Word, w &&& 0xF00F = 0x9000 → decode w = .ok (.sneReg (fieldX w) (fieldY w))) ∧
  ∀ (x y : Nibble) (s : State),
    (∃ t, exec (.seReg x y) s = .next t ∧
      t.pc = (if s.getV x = s.getV y then s.pc + 4 else s.pc + 2) ∧ t.result = .completed ∧ sameButPc s t) ∧
    ∃ t, exec (.sneReg x y) s = .next t ∧
      t.pc = (if s.getV x = s.getV y then s.pc + 2 else s.pc + 4) ∧ t.result = .completed ∧ sameButPc s t

/-! ### Register operations -/

/-- R120: LD Vx, nn, for every register, VF as any other. -/
def Obligations.LdImmLoadsTheByte : Prop :=
  (∀ w : Word, w &&& 0xF000 = 0x6000 → decode w = .ok (.ldImm (fieldX w) (fieldNN w))) ∧
  (∀ (x : Nibble) (nn : Byte) (s : State), ∃ t, exec (.ldImm x nn) s = .next t ∧ t.getV x = nn ∧
    t.pc = s.pc + 2 ∧ t.result = .completed ∧ (∀ r, r ≠ x → t.getV r = s.getV r) ∧ sameButRegs s t) ∧
  decode 0x6105 = .ok (.ldImm 1 5)

/-- R121, R122: ADD Vx, nn (modulo 256, no flag); LD Vx, Vy.
The opcode numbers are the spec's general knowledge (R75, D2, log entry 7). -/
def Obligations.AddImmAndRegisterCopy : Prop :=
  (∀ w : Word, w &&& 0xF000 = 0x7000 → decode w = .ok (.addImm (fieldX w) (fieldNN w))) ∧
  (∀ w : Word, w &&& 0xF00F = 0x8000 → decode w = .ok (.ldReg (fieldX w) (fieldY w))) ∧
  ∀ (x y : Nibble) (nn : Byte) (s : State),
    (∃ t, exec (.addImm x nn) s = .next t ∧ (t.getV x).toNat = ((s.getV x).toNat + nn.toNat) % 256 ∧
      t.pc = s.pc + 2 ∧ t.result = .completed ∧ (∀ r, r ≠ x → t.getV r = s.getV r) ∧ sameButRegs s t) ∧
    ∃ t, exec (.ldReg x y) s = .next t ∧ t.getV x = s.getV y ∧
      t.pc = s.pc + 2 ∧ t.result = .completed ∧ (∀ r, r ≠ x → t.getV r = s.getV r) ∧ sameButRegs s t

/-- R123, R124, R125: OR, AND, XOR bit by bit; VF changes only as the destination.
That VF stays is its decision D29 (log entry 17). The opcode numbers are the spec's general knowledge (R75, D2, log entry 7). -/
def Obligations.LogicalOperations : Prop :=
  (∀ w : Word, w &&& 0xF00F = 0x8001 → decode w = .ok (.or (fieldX w) (fieldY w))) ∧
  (∀ w : Word, w &&& 0xF00F = 0x8002 → decode w = .ok (.and (fieldX w) (fieldY w))) ∧
  (∀ w : Word, w &&& 0xF00F = 0x8003 → decode w = .ok (.xor (fieldX w) (fieldY w))) ∧
  ∀ (x y : Nibble) (s : State),
    (∃ t, exec (.or x y) s = .next t ∧
      (∀ k, (t.getV x).getLsbD k = ((s.getV x).getLsbD k || (s.getV y).getLsbD k)) ∧
      t.pc = s.pc + 2 ∧ t.result = .completed ∧ (∀ r, r ≠ x → t.getV r = s.getV r) ∧ sameButRegs s t) ∧
    (∃ t, exec (.and x y) s = .next t ∧
      (∀ k, (t.getV x).getLsbD k = ((s.getV x).getLsbD k && (s.getV y).getLsbD k)) ∧
      t.pc = s.pc + 2 ∧ t.result = .completed ∧ (∀ r, r ≠ x → t.getV r = s.getV r) ∧ sameButRegs s t) ∧
    ∃ t, exec (.xor x y) s = .next t ∧
      (∀ k, (t.getV x).getLsbD k = ((s.getV x).getLsbD k != (s.getV y).getLsbD k)) ∧
      t.pc = s.pc + 2 ∧ t.result = .completed ∧ (∀ r, r ≠ x → t.getV r = s.getV r) ∧ sameButRegs s t

/-- R126 under `flag_last`: the sum modulo 256 and VF the carry; with `x = 15` the sum is lost.
The order of the two writes is the open parameter VF_WRITE_ORDER (D10, log entry 4). -/
def Obligations.AddSetsTheCarry : Prop :=
  (∀ w : Word, w &&& 0xF00F = 0x8004 → decode w = .ok (.addReg (fieldX w) (fieldY w))) ∧
  ∀ (x y : Nibble) (s : State), s.cfg.vfWriteOrder = .flagLast →
    ∃ t, exec (.addReg x y) s = .next t ∧
      (x ≠ 0xF → (t.getV x).toNat = ((s.getV x).toNat + (s.getV y).toNat) % 256) ∧
      (t.getV 0xF).toNat = (if (s.getV x).toNat + (s.getV y).toNat > 255 then 1 else 0) ∧
      t.pc = s.pc + 2 ∧ t.result = .completed ∧ (∀ r, r ≠ x → r ≠ 0xF → t.getV r = s.getV r) ∧ sameButRegs s t

/-- R127, R128 under `flag_last`: both operand orders, VF 1 iff no borrow.
The order of the two writes is the open parameter VF_WRITE_ORDER (D10, log entry 4). The opcode numbers are the spec's general knowledge (R75, D2, log entry 7). -/
def Obligations.SubtractionsSetNoBorrow : Prop :=
  (∀ w : Word, w &&& 0xF00F = 0x8005 → decode w = .ok (.sub (fieldX w) (fieldY w))) ∧
  (∀ w : Word, w &&& 0xF00F = 0x8007 → decode w = .ok (.subn (fieldX w) (fieldY w))) ∧
  ∀ (x y : Nibble) (s : State), s.cfg.vfWriteOrder = .flagLast →
    (∃ t, exec (.sub x y) s = .next t ∧
      (x ≠ 0xF → (t.getV x).toNat = ((s.getV x).toNat + 256 - (s.getV y).toNat) % 256) ∧
      (t.getV 0xF).toNat = (if (s.getV x).toNat ≥ (s.getV y).toNat then 1 else 0) ∧
      t.pc = s.pc + 2 ∧ t.result = .completed ∧ (∀ r, r ≠ x → r ≠ 0xF → t.getV r = s.getV r) ∧ sameButRegs s t) ∧
    ∃ t, exec (.subn x y) s = .next t ∧
      (x ≠ 0xF → (t.getV x).toNat = ((s.getV y).toNat + 256 - (s.getV x).toNat) % 256) ∧
      (t.getV 0xF).toNat = (if (s.getV y).toNat ≥ (s.getV x).toNat then 1 else 0) ∧
      t.pc = s.pc + 2 ∧ t.result = .completed ∧ (∀ r, r ≠ x → r ≠ 0xF → t.getV r = s.getV r) ∧ sameButRegs s t

/-- R129, R130, R78 under `flag_last`: the shifts by one, VF the bit shifted out, and `y` ignored.
The order of the two writes is the open parameter VF_WRITE_ORDER (D10, log entry 4), the operand Vx its decision D9 (log entry 12).
The opcode numbers are the spec's general knowledge (R75, D2, log entry 7). -/
def Obligations.ShiftsByOne : Prop :=
  (∀ w : Word, w &&& 0xF00F = 0x8006 → decode w = .ok (.shr (fieldX w) (fieldY w))) ∧
  (∀ w : Word, w &&& 0xF00F = 0x800E → decode w = .ok (.shl (fieldX w) (fieldY w))) ∧
  (∀ (x y y' : Nibble) (s : State), exec (.shr x y) s = exec (.shr x y') s ∧ exec (.shl x y) s = exec (.shl x y') s) ∧
  ∀ (x y : Nibble) (s : State), s.cfg.vfWriteOrder = .flagLast →
    (∃ t, exec (.shr x y) s = .next t ∧
      (x ≠ 0xF → (t.getV x).toNat = (s.getV x).toNat / 2) ∧ (t.getV 0xF).toNat = (s.getV x).toNat % 2 ∧
      t.pc = s.pc + 2 ∧ t.result = .completed ∧ (∀ r, r ≠ x → r ≠ 0xF → t.getV r = s.getV r) ∧ sameButRegs s t) ∧
    ∃ t, exec (.shl x y) s = .next t ∧
      (x ≠ 0xF → (t.getV x).toNat = (s.getV x).toNat * 2 % 256) ∧ (t.getV 0xF).toNat = (s.getV x).toNat / 128 ∧
      t.pc = s.pc + 2 ∧ t.result = .completed ∧ (∀ r, r ≠ x → r ≠ 0xF → t.getV r = s.getV r) ∧ sameButRegs s t

/-- R131, `flag_first`: VF is written first, from the operands at the start, and the result is recomputed from the register file after that
write (`afterFlag`). The six instructions of R131, each with its result in Vx (or in `I`).
VF_WRITE_ORDER is an open parameter (D10, log entry 4), `flag_first` not its default. The operand Vx of the shifts is the spec's decision D9
(log entry 12), VF 0 otherwise and the unmasked sum of ADD I, Vx its D11 (log entry 13). -/
def Obligations.FlagFirstRecomputesTheResult : Prop :=
  ∀ (x y : Nibble) (s : State), s.cfg.vfWriteOrder = .flagFirst →
    (∀ c, c = decide ((s.getV x).toNat + (s.getV y).toNat > 255) →
      ∃ t, exec (.addReg x y) s = .next t ∧ (t.getV x).toNat = (afterFlag s c x + afterFlag s c y) % 256 ∧
        (∀ r, r ≠ x → (t.getV r).toNat = afterFlag s c r) ∧ t.pc = s.pc + 2 ∧ t.result = .completed ∧ sameButRegs s t) ∧
    (∀ c, c = decide ((s.getV x).toNat ≥ (s.getV y).toNat) →
      ∃ t, exec (.sub x y) s = .next t ∧ (t.getV x).toNat = (afterFlag s c x + 256 - afterFlag s c y) % 256 ∧
        (∀ r, r ≠ x → (t.getV r).toNat = afterFlag s c r) ∧ t.pc = s.pc + 2 ∧ t.result = .completed ∧ sameButRegs s t) ∧
    (∀ c, c = decide ((s.getV y).toNat ≥ (s.getV x).toNat) →
      ∃ t, exec (.subn x y) s = .next t ∧ (t.getV x).toNat = (afterFlag s c y + 256 - afterFlag s c x) % 256 ∧
        (∀ r, r ≠ x → (t.getV r).toNat = afterFlag s c r) ∧ t.pc = s.pc + 2 ∧ t.result = .completed ∧ sameButRegs s t) ∧
    (∀ c, c = decide ((s.getV x).toNat % 2 = 1) →
      ∃ t, exec (.shr x y) s = .next t ∧ (t.getV x).toNat = afterFlag s c x / 2 ∧
        (∀ r, r ≠ x → (t.getV r).toNat = afterFlag s c r) ∧ t.pc = s.pc + 2 ∧ t.result = .completed ∧ sameButRegs s t) ∧
    (∀ c, c = decide ((s.getV x).toNat / 128 = 1) →
      ∃ t, exec (.shl x y) s = .next t ∧ (t.getV x).toNat = afterFlag s c x * 2 % 256 ∧
        (∀ r, r ≠ x → (t.getV r).toNat = afterFlag s c r) ∧ t.pc = s.pc + 2 ∧ t.result = .completed ∧ sameButRegs s t) ∧
    ∀ c, c = decide (s.i.toNat + (s.getV x).toNat > 0xFFF) →
      ∃ t, exec (.addI x) s = .next t ∧ t.i.toNat = (s.i.toNat + afterFlag s c x) % 65536 ∧
        (∀ r, (t.getV r).toNat = afterFlag s c r) ∧ t.pc = s.pc + 2 ∧ t.result = .completed ∧ sameMemory s t ∧ sameMachine s t

/-- R131: "A program that never uses register 15 as an operand or destination of these six instructions behaves the same under both." A
shift and ADD I, Vx have the one register operand x.
VF_WRITE_ORDER is an open parameter (D10, log entry 4); the operand Vx of the shifts is the spec's decision D9 (log entry 12), the flag and
the sum of ADD I, Vx its D11 (log entry 13). -/
def Obligations.WriteOrderMattersOnlyForVF : Prop :=
  ∀ (x y : Nibble) (s : State), x ≠ 0xF →
    ordersAgree (.shr x y) s ∧ ordersAgree (.shl x y) s ∧ ordersAgree (.addI x) s ∧
    (y ≠ 0xF → ordersAgree (.addReg x y) s ∧ ordersAgree (.sub x y) s ∧ ordersAgree (.subn x y) s)

/-! ### Address register and memory -/

/-- R140, R141: LD I, nnn and LD F, Vx (the low nibble's glyph).
The opcode numbers are the spec's general knowledge (R75, D2, log entry 7). -/
def Obligations.AddressLoads : Prop :=
  (∀ w : Word, w &&& 0xF000 = 0xA000 → decode w = .ok (.ldI (fieldNNN w))) ∧
  (∀ w : Word, w &&& 0xF0FF = 0xF029 → decode w = .ok (.ldF (fieldX w))) ∧
  ∀ (nnn : Addr12) (x : Nibble) (s : State),
    (∃ t, exec (.ldI nnn) s = .next t ∧ t.i.toNat = nnn.toNat ∧ t.pc = s.pc + 2 ∧ t.result = .completed ∧
      sameRegs s t ∧ sameMemory s t ∧ sameMachine s t) ∧
    ∃ t, exec (.ldF x) s = .next t ∧ t.i.toNat = (s.getV x).toNat % 16 * 5 ∧ t.pc = s.pc + 2 ∧ t.result = .completed ∧
      sameRegs s t ∧ sameMemory s t ∧ sameMachine s t

/-- R142 under `flag_last`: ADD I, Vx modulo 65536, VF 1 iff the unbounded sum exceeds 0xFFF.
VF 0 otherwise and the unmasked sum are its decision D11 (log entry 13). The opcode numbers are the spec's general knowledge (R75, D2, log entry 7). -/
def Obligations.AddISetsTheAddressFlag : Prop :=
  (∀ w : Word, w &&& 0xF0FF = 0xF01E → decode w = .ok (.addI (fieldX w))) ∧
  ∀ (x : Nibble) (s : State), s.cfg.vfWriteOrder = .flagLast →
    ∃ t, exec (.addI x) s = .next t ∧ t.i.toNat = (s.i.toNat + (s.getV x).toNat) % 65536 ∧
      (t.getV 0xF).toNat = (if s.i.toNat + (s.getV x).toNat > 0x0FFF then 1 else 0) ∧
      t.pc = s.pc + 2 ∧ t.result = .completed ∧ (∀ r, r ≠ 0xF → t.getV r = s.getV r) ∧ sameMemory s t ∧ sameMachine s t

/-- R143: LD B, Vx stores the three decimal digits at `I`, `I + 1`, `I + 2`; every other byte reads as before.
The opcode numbers are the spec's general knowledge (R75, D2, log entry 7). -/
def Obligations.LdBStoresDecimalDigits : Prop :=
  (∀ w : Word, w &&& 0xF0FF = 0xF033 → decode w = .ok (.ldB (fieldX w))) ∧
  ∀ (x : Nibble) (s : State), s.i.toNat + 2 ≤ 0xFFF →
    ∃ t, exec (.ldB x) s = .next t ∧
      (t.readByte s.i.toNat).toNat = (s.getV x).toNat / 100 ∧
      (t.readByte (s.i.toNat + 1)).toNat = (s.getV x).toNat / 10 % 10 ∧
      (t.readByte (s.i.toNat + 2)).toNat = (s.getV x).toNat % 10 ∧
      (∀ a, a < s.i.toNat ∨ s.i.toNat + 2 < a → t.readByte a = s.readByte a) ∧
      t.pc = s.pc + 2 ∧ t.result = .completed ∧ sameRegs s t ∧ t.i = s.i ∧ sameMachine s t

/-- R144: LD [I], Vx stores V0 to Vx at `I` upward and advances `I`; every other byte reads as before.
The opcode numbers are the spec's general knowledge (R75, D2, log entry 7). -/
def Obligations.BulkStore : Prop :=
  (∀ w : Word, w &&& 0xF0FF = 0xF055 → decode w = .ok (.storeRegs (fieldX w))) ∧
  ∀ (x : Nibble) (s : State), s.i.toNat + x.toNat ≤ 0xFFF →
    ∃ t, exec (.storeRegs x) s = .next t ∧
      (∀ r : Nibble, r.toNat ≤ x.toNat → t.readByte (s.i.toNat + r.toNat) = s.getV r) ∧
      (∀ a, a < s.i.toNat ∨ s.i.toNat + x.toNat < a → t.readByte a = s.readByte a) ∧
      t.i.toNat = s.i.toNat + x.toNat + 1 ∧
      t.pc = s.pc + 2 ∧ t.result = .completed ∧ sameRegs s t ∧ sameMachine s t

/-- R145: LD Vx, [I] loads V0 to Vx from `I` upward and advances `I`; registers above Vx and memory are unchanged.
The opcode numbers are the spec's general knowledge (R75, D2, log entry 7). -/
def Obligations.BulkLoad : Prop :=
  (∀ w : Word, w &&& 0xF0FF = 0xF065 → decode w = .ok (.loadRegs (fieldX w))) ∧
  ∀ (x : Nibble) (s : State), s.i.toNat + x.toNat ≤ 0xFFF →
    ∃ t, exec (.loadRegs x) s = .next t ∧
      (∀ r : Nibble, r.toNat ≤ x.toNat → t.getV r = s.readByte (s.i.toNat + r.toNat)) ∧
      (∀ r : Nibble, x.toNat < r.toNat → t.getV r = s.getV r) ∧
      t.i.toNat = s.i.toNat + x.toNat + 1 ∧
      t.pc = s.pc + 2 ∧ t.result = .completed ∧ sameMemory s t ∧ sameMachine s t

/-- Bulk load is "the inverse" of bulk store (R145): loading where a bulk store put V0 to Vx gives those values back.
It follows from R144 and R145. -/
def Obligations.BulkLoadInvertsBulkStore : Prop :=
  ∀ (x : Nibble) (s t u : State), exec (.storeRegs x) s = .next t → t.result = .completed →
    u.mem = t.mem → u.cfg = t.cfg → u.i = s.i →
    ∃ v, exec (.loadRegs x) u = .next v ∧ v.result = .completed ∧ ∀ r : Nibble, r.toNat ≤ x.toNat → v.getV r = s.getV r

/-- R207: the four data instructions whose range passes 0xFFF fault with `max(I, 0x1000)` and change nothing but `status`; a draw of no
rows cannot.
The fault and its check before any access are the spec's decision D7 (log entry 10), the latched status that alone changes its D13 (log
entry 1). -/
def Obligations.DataAccessFaults : Prop :=
  ∀ (s : State) (e : State), e = { s with status := .faulted .memoryOutOfRange (BitVec.ofNat 16 (max s.i.toNat 0x1000)),
                                          result := .fatal .memoryOutOfRange (BitVec.ofNat 16 (max s.i.toNat 0x1000)) } →
    (∀ x : Nibble, s.i.toNat + 2 > 0xFFF → exec (.ldB x) s = .next e) ∧
    (∀ x : Nibble, s.i.toNat + x.toNat > 0xFFF → exec (.storeRegs x) s = .next e) ∧
    (∀ x : Nibble, s.i.toNat + x.toNat > 0xFFF → exec (.loadRegs x) s = .next e) ∧
    ∀ x y n : Nibble, n.toNat > 0 → s.i.toNat + n.toNat - 1 > 0xFFF → exec (.drw x y n) s = .next e

/-- R59, R65: a byte written inside memory is read back, every other address reads as before; and R61: the next fetch sees it.
That the core sees its own stores to code is the inference R61 marks. -/
def Obligations.ReadAfterWrite : Prop :=
  (∀ (s : State) (a : Nat) (b : Byte), a ≤ 0xFFF →
    (s.writeByte a b).readByte a = b ∧ (∀ c, c ≠ a → (s.writeByte a b).readByte c = s.readByte c) ∧
    sameRegs s (s.writeByte a b) ∧ (s.writeByte a b).i = s.i ∧ (s.writeByte a b).pc = s.pc ∧ sameMachine s (s.writeByte a b)) ∧
  ∀ (s : State) (hi lo : Byte), s.pc.toNat ≤ 0xFFE →
    (fetchWord ((s.writeByte s.pc.toNat hi).writeByte (s.pc.toNat + 1) lo)).toNat = hi.toNat * 256 + lo.toNat

/-! ### Random, keys, timers -/

/-- R160, R161: RND Vx, nn takes exactly one byte from the random input, whatever it is.
The byte is a free value (D18, log entry 3). The opcode numbers are the spec's general knowledge (R75, D2, log entry 7). -/
def Obligations.RndMasksTheDrawnByte : Prop :=
  (∀ w : Word, w &&& 0xF000 = 0xC000 → decode w = .ok (.rnd (fieldX w) (fieldNN w))) ∧
  ∀ (x : Nibble) (nn : Byte) (s : State), ∃ t, exec (.rnd x nn) s = .next t ∧
    (∀ k, (t.getV x).getLsbD k = ((Config.randByte s.draws).getLsbD k && nn.getLsbD k)) ∧ t.draws = s.draws + 1 ∧
    t.pc = s.pc + 2 ∧ t.result = .completed ∧ (∀ r, r ≠ x → t.getV r = s.getV r) ∧ t.i = s.i ∧ sameMemory s t ∧
    sameStack s t ∧ sameTimers s t ∧ sameDisplay s t ∧ sameControl s t

/-- R165, R166, R168: the key skips, for a key number 0 to 15; any non-zero slot is pressed.
That Vx holds the key number and non-zero is pressed are its decisions D8, D20 (log entries 11, 27). The opcode numbers are the spec's general knowledge (R75, D2, log entry 7). -/
def Obligations.KeySkips : Prop :=
  (∀ w : Word, w &&& 0xF0FF = 0xE09E → decode w = .ok (.skp (fieldX w))) ∧
  (∀ w : Word, w &&& 0xF0FF = 0xE0A1 → decode w = .ok (.sknp (fieldX w))) ∧
  ∀ (x : Nibble) (s : State) (slot : Byte), s.keys.toList[(s.getV x).toNat]? = some slot →
    (∃ t, exec (.skp x) s = .next t ∧
      t.pc = (if slot = 0 then s.pc + 2 else s.pc + 4) ∧ t.result = .completed ∧ sameButPc s t) ∧
    ∃ t, exec (.sknp x) s = .next t ∧
      t.pc = (if slot = 0 then s.pc + 4 else s.pc + 2) ∧ t.result = .completed ∧ sameButPc s t

/-- R208: a key number above 15 is fatal in the two skips, and LD Vx, K cannot raise it.
The fault is the spec's decision D8 (log entry 11), the latched status that alone changes its D13 (log entry 1). -/
def Obligations.KeyNumberFaults : Prop :=
  (∀ (x : Nibble) (s : State), (s.getV x).toNat > 15 → ∀ info : Word, info.toNat = (s.getV x).toNat →
    exec (.skp x) s = .next { s with status := .faulted .keyIndexOutOfRange info, result := .fatal .keyIndexOutOfRange info } ∧
    exec (.sknp x) s = .next { s with status := .faulted .keyIndexOutOfRange info, result := .fatal .keyIndexOutOfRange info }) ∧
  ∀ (x : Nibble) (s t : State), exec (.ldKey x) s = .next t → t.status = s.status

/-- R167: LD Vx, K writes the LOWEST pressed key number and completes.
"First" as lowest-numbered is its decision D19 (log entry 15). The opcode numbers are the spec's general knowledge (R75, D2, log entry 7). -/
def Obligations.KeyWaitTakesTheLowestKey : Prop :=
  (∀ w : Word, w &&& 0xF0FF = 0xF00A → decode w = .ok (.ldKey (fieldX w))) ∧
  ∀ (x k : Nibble) (s : State), s.pressed k = true → (∀ j : Nibble, j.toNat < k.toNat → s.pressed j = false) →
    ∃ t, exec (.ldKey x) s = .next t ∧ (t.getV x).toNat = k.toNat ∧
      t.pc = s.pc + 2 ∧ t.result = .completed ∧ (∀ r, r ≠ x → t.getV r = s.getV r) ∧ sameButRegs s t

/-- R175, R176, R177: the timer moves (the cycle's decrement is a statement of its own).
The opcode numbers are the spec's general knowledge (R75, D2, log entry 7). -/
def Obligations.TimerMoves : Prop :=
  (∀ w : Word, w &&& 0xF0FF = 0xF007 → decode w = .ok (.ldFromDT (fieldX w))) ∧
  (∀ w : Word, w &&& 0xF0FF = 0xF015 → decode w = .ok (.ldDT (fieldX w))) ∧
  (∀ w : Word, w &&& 0xF0FF = 0xF018 → decode w = .ok (.ldST (fieldX w))) ∧
  ∀ (x : Nibble) (s : State),
    (∃ t, exec (.ldFromDT x) s = .next t ∧ t.getV x = s.dt ∧
      t.pc = s.pc + 2 ∧ t.result = .completed ∧ (∀ r, r ≠ x → t.getV r = s.getV r) ∧ sameButRegs s t) ∧
    (∃ t, exec (.ldDT x) s = .next t ∧ t.dt = s.getV x ∧ t.st = s.st ∧
      t.pc = s.pc + 2 ∧ t.result = .completed ∧ sameRegs s t ∧ t.i = s.i ∧ sameMemory s t ∧ sameStack s t ∧ sameDisplay s t ∧
      sameControl s t ∧ t.draws = s.draws) ∧
    ∃ t, exec (.ldST x) s = .next t ∧ t.st = s.getV x ∧ t.dt = s.dt ∧
      t.pc = s.pc + 2 ∧ t.result = .completed ∧ sameRegs s t ∧ t.i = s.i ∧ sameMemory s t ∧ sameStack s t ∧ sameDisplay s t ∧
      sameControl s t ∧ t.draws = s.draws

/-! ### Display -/

/-- R180: CLS.
The opcode numbers are the spec's general knowledge (R75, D2, log entry 7). -/
def Obligations.ClsClearsEveryCell : Prop :=
  decode 0x00E0 = .ok .cls ∧
  ∀ s : State, ∃ t, exec .cls s = .next t ∧ (∀ k, k < 2048 → t.cell k = false) ∧ t.redrawPending = true ∧
    t.pc = s.pc + 2 ∧ t.result = .completed ∧ sameRegs s t ∧ t.i = s.i ∧ sameMemory s t ∧ sameStack s t ∧ sameTimers s t ∧
    sameControl s t ∧ t.draws = s.draws

/-- R181, R182: DRW inverts exactly the cells under the sprite's 1 bits; VF is 1 iff one of them was 1; `redrawPending` is set. For every
edge policy, every `x`, `y`, `n`.
Bit order, VF 0 and the edge policy are its decisions D16, D17 (log entry 14). The opcode numbers are the spec's general knowledge (R75, D2, log entry 7). -/
def Obligations.DrwXorsTheSprite : Prop :=
  (∀ w : Word, w &&& 0xF000 = 0xD000 → decode w = .ok (.drw (fieldX w) (fieldY w) (fieldN w))) ∧
  ∀ (x y n : Nibble) (s : State), drawFits s x y n →
    ∃ t, exec (.drw x y n) s = .next t ∧
      (∀ k, spriteHits s (s.getV x).toNat (s.getV y).toNat n.toNat k → t.cell k = !s.cell k) ∧
      (∀ k, ¬ spriteHits s (s.getV x).toNat (s.getV y).toNat n.toNat k → t.cell k = s.cell k) ∧
      ((∃ k, spriteHits s (s.getV x).toNat (s.getV y).toNat n.toNat k ∧ s.cell k = true) → t.getV 0xF = 1) ∧
      ((∀ k, spriteHits s (s.getV x).toNat (s.getV y).toNat n.toNat k → s.cell k = false) → t.getV 0xF = 0) ∧
      t.redrawPending = true ∧ t.pc = s.pc + 2 ∧ t.result = .completed ∧ (∀ r, r ≠ 0xF → t.getV r = s.getV r) ∧ t.i = s.i ∧
      sameMemory s t ∧ sameStack s t ∧ sameTimers s t ∧ sameControl s t ∧ t.draws = s.draws

/-- R209: under `raw` a rectangle past cell 2047 is fatal, whatever the sprite bits; under `clip` and `wrap` the fault does not exist; and no
rows cannot fault.
The fault and the policies are the spec's decision D16 (log entry 14), the latched status that alone changes its D13 (log entry 1). -/
def Obligations.FramebufferFaults : Prop :=
  (∀ (x y n : Nibble) (s : State), s.cfg.drawEdge = .raw → n.toNat > 0 → s.i.toNat + n.toNat - 1 ≤ 0xFFF →
    ((s.getV y).toNat + n.toNat - 1) * 64 + (s.getV x).toNat + 7 > 2047 →
    ∀ info : Word, info.toNat = ((s.getV y).toNat + n.toNat - 1) * 64 + (s.getV x).toNat + 7 →
    exec (.drw x y n) s =
      .next { s with status := .faulted .framebufferOutOfRange info, result := .fatal .framebufferOutOfRange info }) ∧
  ∀ (x y n : Nibble) (s t : State), s.cfg.drawEdge ≠ .raw ∨ n.toNat = 0 → exec (.drw x y n) s = .next t →
    ∀ info, t.result ≠ .fatal .framebufferOutOfRange info

/-- R183: the cell under a sprite cell for each policy, and no cell of the framebuffer lies under two cells of one sprite.
The policies are the spec's decision D16 (log entry 14). -/
def Obligations.SpriteCellsAreDistinct : Prop :=
  (∀ px py, cellAt .raw px py = some (py * 64 + px)) ∧
  (∀ px py, cellAt .clip px py = if px ≤ 63 ∧ py ≤ 31 then some (py * 64 + px) else none) ∧
  (∀ px py, cellAt .wrap px py = some (py % 32 * 64 + px % 64)) ∧
  ∀ (policy : DrawEdgePolicy) (vx vy k r c r' c' : Nat), r < 15 → c < 8 → r' < 15 → c' < 8 →
    cellAt policy (vx + c) (vy + r) = some k → cellAt policy (vx + c') (vy + r') = some k → r = r' ∧ c = c'

/-- The source's property S5, from every framebuffer: drawing the same sprite twice restores every cell, and the second VF is 1 exactly when
a cell under the sprite was 0 before the first draw.
(The source's sentence says "if the sprite has any 1 bit"; R181's pseudocode gives this condition, log entry 14.) -/
def Obligations.DrawingTwiceRestores : Prop :=
  ∀ (x y n : Nibble) (s t : State), x ≠ 0xF → y ≠ 0xF → drawFits s x y n → exec (.drw x y n) s = .next t →
    ∃ u, exec (.drw x y n) t = .next u ∧ u.result = .completed ∧ u.fb = s.fb ∧
      (u.getV 0xF = 1 ↔ ∃ k, spriteHits s (s.getV x).toNat (s.getV y).toNat n.toNat k ∧ s.cell k = false)

/-- R246: a sprite inside the screen is drawn alike under all three edge policies.
The policies are the spec's decision D16 (log entry 14). -/
def Obligations.PoliciesAgreeOnScreen : Prop :=
  ∀ (x y n : Nibble) (p : DrawEdgePolicy) (s t t' : State), (s.getV x).toNat ≤ 56 → (s.getV y).toNat + n.toNat ≤ 32 →
    exec (.drw x y n) s = .next t → exec (.drw x y n) { s with cfg := { s.cfg with drawEdge := p } } = .next t' →
    t'.fb = t.fb ∧ sameRegs t t' ∧ t'.result = t.result ∧ t'.redrawPending = t.redrawPending ∧ t'.pc = t.pc

/-! ### Rules about the whole machine -/

/-- R41, over all 34 instructions: who writes which element. No instruction writes a key slot. R160: only RND draws a random byte. That the
parameters and the count of draws are fields of the state is the model's DESIGN CHOICE (log entries 4 and 3). -/
def Obligations.EachElementHasItsWriters : Prop :=
  ∀ (i : Instr) (s t : State), exec i s = .next t →
    t.keys = s.keys ∧ t.cfg = s.cfg ∧
    ((∀ n, i ≠ .call n) → i ≠ .ret → sameStack s t) ∧
    ((∀ x, i ≠ .ldB x) → (∀ x, i ≠ .storeRegs x) → sameMemory s t) ∧
    (i ≠ .cls → (∀ x y n, i ≠ .drw x y n) → sameDisplay s t) ∧
    ((∀ n, i ≠ .ldI n) → (∀ x, i ≠ .ldF x) → (∀ x, i ≠ .addI x) → (∀ x, i ≠ .storeRegs x) → (∀ x, i ≠ .loadRegs x) →
      t.i = s.i) ∧
    ((∀ x, i ≠ .ldDT x) → t.dt = s.dt) ∧ ((∀ x, i ≠ .ldST x) → t.st = s.st) ∧
    ((∀ x nn, i ≠ .rnd x nn) → t.draws = s.draws)

/-- R22, R133, over all 34 instructions: a register changes only as the destination, or as VF in one of the seven flag writers; and, with
`flag_last`, a flag writer that completes leaves 0x00 or 0x01 in VF.
The order is an open parameter (D10, log entry 4); that ADD I, Vx and DRW write 0 otherwise is the spec's decisions D11, D17 (log entries 13
and 14). -/
def Obligations.RegistersChangeOnlyAsDestinationOrFlag : Prop :=
  ∀ (i : Instr) (s t : State), exec i s = .next t →
    (∀ r, Instr.isDestination i r = false → (r = 0xF → Instr.writesFlag i = false) → t.getV r = s.getV r) ∧
    (Instr.writesFlag i = true → s.cfg.vfWriteOrder = .flagLast → t.result = .completed →
      t.getV 0xF = 0x00 ∨ t.getV 0xF = 0x01)

/-- R33, R184, R195: no cycle clears the redraw signal; the host's `present_done` does and changes nothing else.
`present_done` is an action of the spec's decision D1 (log entry 19); that it acts on a halted core too is the model's choice (log entry 30). -/
def Obligations.RedrawSignalStands : Prop :=
  (∀ s t : State, step s = .next t → s.redrawPending = true → t.redrawPending = true) ∧
  ∀ s : State, s.presentDone.redrawPending = false ∧ { s.presentDone with redrawPending := s.redrawPending } = s

/-- Every cycle keeps memory in its canonical form, from every state that has it.
The form is the model's own (log entry 6). -/
def Obligations.MemoryStaysCanonical : Prop :=
  ∀ s t : State, s.mem.wf s.cfg.font → step s = .next t → t.mem.wf t.cfg.font

/-- R25, R27, R102: every cycle keeps the invariant: memory canonical, `pc` at most 0x10FE, the live stack entries even and 0x202 to 0x1000, the
standing report true.
The bounds are the inferences R25 and R102 mark, the canonical form and the report are the model's (log entries 2, 6). -/
def Obligations.InvariantIsKeptByEveryCycle : Prop :=
  ∀ s t : State, s.Inv → step s = .next t → t.Inv

/-- The invariant holds after reset, for every choice of the open parameters.
The parameters are fields of the state by the model's choice (log entry 4). -/
def Obligations.InvariantHoldsAtReset : Prop :=
  State.reset.Inv ∧ ∀ c : Config, (State.resetWith c).Inv

/-! ### The host -/

/-- Every host action, `initialize` and `load` keep the invariant (R197, R230, R232).
The canonical form and the report are the model's (log entries 6 and 2), and under `skip` the report stays true only because the host's action
consumes it, the model's DESIGN CHOICE (log entry 22). That `initialize` may come from any state and `load` after it is the spec's decision
D27 (log entries 21 and 24). The actions are its D1, D30 (log entry 19); that they act on a halted core too is the model's choice (log entry 30). -/
def Obligations.HostActionsKeepTheInvariant : Prop :=
  (∀ (a : HostAction) (s : State), s.Inv → (hostAct a s).Inv) ∧
  (∀ s : State, s.initialize.Inv) ∧
  ∀ (s t : State) (image : List Byte), s.initialize.load image = .ok t → t.Inv

/-- R37: the table of values after `initialize`, whatever came before.
`status` is the spec's decision D13 (log entry 1), the font a parameter (D22, log entry 18). That it may be called whatever came before is its
D27 (R231), and that the parameters stay is the model's DESIGN CHOICE (log entry 21 for both). -/
def Obligations.InitializeGivesTheResetTable : Prop :=
  (∀ s t : State, t = s.initialize →
    (∀ r, t.getV r = 0x00) ∧ t.i = 0x0000 ∧ t.pc = 0x0200 ∧ (∀ k, k < 16 → t.stack.toList[k]? = some 0x0000) ∧ t.sp.val = 0 ∧
    t.dt = 0x00 ∧ t.st = 0x00 ∧
    (∀ k, k < 80 → some (t.readByte k) = t.cfg.font.toList[k]?) ∧ (∀ a, 80 ≤ a → t.readByte a = 0x00) ∧
    (∀ k, k < 2048 → t.cell k = false) ∧ (∀ k, k < 16 → t.keys.toList[k]? = some 0x00) ∧ t.redrawPending = false ∧
    t.status = .running ∧ t.cfg = s.cfg) ∧
  State.reset = State.reset.initialize

/-- R232: `load` refuses more than 3584 bytes; else byte `k` of the image is at `0x200 + k`, every other byte is as before, and nothing but
memory changes. -/
def Obligations.LoadCopiesTheImage : Prop :=
  ∀ (image : List Byte) (s : State),
    (image.length > 3584 → ∃ info, s.load image = .error (.imageTooLarge info)) ∧
    (image.length ≤ 3584 → ∃ t, s.load image = .ok t ∧
      (∀ k, k < image.length → some (t.readByte (0x200 + k)) = image[k]?) ∧
      (∀ a, a < 0x200 ∨ 0x200 + image.length ≤ a → t.readByte a = s.readByte a) ∧
      sameRegs s t ∧ t.i = s.i ∧ t.pc = s.pc ∧ sameMachine s t ∧ t.result = s.result)

/-- R202, R197: what the host does after an unknown instruction, by policy: `skip` adds 2 to `pc` with no timer decrement, `halt` invokes no
further cycle. R200: a refused image's code is 1 and its `info` its length, saturated. R32: a key write changes one slot, to 0 or 1.
UNKNOWN_POLICY is an open parameter (D21, log entry 22). That the report is consumed under `skip` (`result := .idle`) is the model's DESIGN
CHOICE (log entry 22). The code is the spec's decision D15 (log entry 28), the values 0 and 1 its D20 (log entry 27), the actions its D1, D30
(log entry 19); that a key write acts on a halted core too is the model's choice (log entry 30). -/
def Obligations.HostPolicyAndKeys : Prop :=
  (∀ (s : State) (w : Word), s.result = .unknownInstruction w →
    (s.cfg.unknownPolicy = .skip → s.afterUnknown = { s with pc := s.pc + 2, result := .idle } ∧ s.hostContinues = true) ∧
    (s.cfg.unknownPolicy = .halt → s.afterUnknown = s ∧ s.hostContinues = false)) ∧
  (∀ (image : List Byte) (s : State) (info : Word), s.load image = .error (.imageTooLarge info) →
    (LoadError.imageTooLarge info).code = 1 ∧ info.toNat = min image.length 0xFFFF) ∧
  ∀ (s : State) (k j : Nibble) (down : Bool),
    (s.setKey k down).keys.toList = s.keys.toList.set k.toNat (if down then 1 else 0) ∧
    ((s.setKey k down).pressed j = if j = k then down else s.pressed j) ∧ { s.setKey k down with keys := s.keys } = s
end

