-- ==== Sys2Proof/Laws/Decode.lean ====
section
/-! SUPPORT. The fields of a word assembled from its fields (`30_encoding.md` R71, R82), and the bytes of a word. -/

namespace Sys2Proof

/-- A field that lies inside the low part of a word is read from the low part. -/
theorem extract_low {v w : Nat} (hi : BitVec v) (lo : BitVec w) {start len : Nat} (h : start + len ≤ w) (hl : 0 < len) :
    (hi ++ lo).extractLsb' start len = lo.extractLsb' start len := by
  have hs : start < w := by omega
  rw [BitVec.extractLsb'_append_eq_ite, dif_pos hs, dif_pos h]

/-! ### Format NNN -/

@[simp] theorem fieldOp_formNNN (op : Nibble) (nnn : Addr12) : fieldOp (formNNN op nnn) = op :=
  BitVec.extractLsb'_append_eq_left

@[simp] theorem fieldNNN_formNNN (op : Nibble) (nnn : Addr12) : fieldNNN (formNNN op nnn) = nnn :=
  BitVec.extractLsb'_append_eq_right

/-! ### Formats XNN and X -/

@[simp] theorem fieldOp_formXNN (op x : Nibble) (nn : Byte) : fieldOp (formXNN op x nn) = op :=
  BitVec.extractLsb'_append_eq_left (a := op) (b := (x ++ nn : BitVec 12))

@[simp] theorem fieldX_formXNN (op x : Nibble) (nn : Byte) : fieldX (formXNN op x nn) = x :=
  (extract_low op (x ++ nn) (start := 8) (len := 4) (by decide) (by decide)).trans BitVec.extractLsb'_append_eq_left

@[simp] theorem fieldNN_formXNN (op x : Nibble) (nn : Byte) : fieldNN (formXNN op x nn) = nn :=
  (extract_low op (x ++ nn) (start := 0) (len := 8) (by decide) (by decide)).trans BitVec.extractLsb'_append_eq_right

/-! ### Formats XY and XYN -/

@[simp] theorem fieldOp_formXYN (op x y n : Nibble) : fieldOp (formXYN op x y n) = op :=
  BitVec.extractLsb'_append_eq_left (a := op) (b := (x ++ (y ++ n) : BitVec 12))

@[simp] theorem fieldX_formXYN (op x y n : Nibble) : fieldX (formXYN op x y n) = x :=
  (extract_low op (x ++ (y ++ n)) (start := 8) (len := 4) (by decide) (by decide)).trans
    (BitVec.extractLsb'_append_eq_left (a := x) (b := (y ++ n : BitVec 8)))

@[simp] theorem fieldY_formXYN (op x y n : Nibble) : fieldY (formXYN op x y n) = y :=
  (extract_low op (x ++ (y ++ n)) (start := 4) (len := 4) (by decide) (by decide)).trans
    ((extract_low x (y ++ n) (start := 4) (len := 4) (by decide) (by decide)).trans
      (BitVec.extractLsb'_append_eq_left (a := y) (b := n)))

@[simp] theorem fieldN_formXYN (op x y n : Nibble) : fieldN (formXYN op x y n) = n :=
  (extract_low op (x ++ (y ++ n)) (start := 0) (len := 4) (by decide) (by decide)).trans
    ((extract_low x (y ++ n) (start := 0) (len := 4) (by decide) (by decide)).trans
      (BitVec.extractLsb'_append_eq_right (a := y) (b := n)))

/-! ### A word is assembled from its fields -/

theorem formNNN_fields (w : Word) : formNNN (fieldOp w) (fieldNNN w) = w := by
  apply BitVec.eq_of_getLsbD_eq
  intro k hk
  simp only [formNNN, fieldOp, fieldNNN, BitVec.getLsbD_append, BitVec.getLsbD_extractLsb']
  by_cases h : k < 12
  · simp [h]
  · have h1 : k - 12 < 4 := by omega
    have h2 : 12 + (k - 12) = k := by omega
    simp [h, h1, h2]

theorem formXNN_fields (w : Word) : formXNN (fieldOp w) (fieldX w) (fieldNN w) = w := by
  have h : (fieldX w ++ fieldNN w : Addr12) = fieldNNN w := by
    apply BitVec.eq_of_getLsbD_eq
    intro k hk
    simp only [fieldX, fieldNN, fieldNNN, BitVec.getLsbD_append, BitVec.getLsbD_extractLsb']
    by_cases h : k < 8
    · simp [h, hk]
    · have h1 : k - 8 < 4 := by omega
      have h2 : 8 + (k - 8) = k := by omega
      simp [h, h1, h2, hk]
  unfold formXNN
  rw [h]
  exact formNNN_fields w

theorem formXYN_fields (w : Word) : formXYN (fieldOp w) (fieldX w) (fieldY w) (fieldN w) = w := by
  have h : (fieldY w ++ fieldN w : Byte) = fieldNN w := by
    apply BitVec.eq_of_getLsbD_eq
    intro k hk
    simp only [fieldY, fieldN, fieldNN, BitVec.getLsbD_append, BitVec.getLsbD_extractLsb']
    by_cases h : k < 4
    · simp [h, hk]
    · have h1 : k - 4 < 4 := by omega
      have h2 : 4 + (k - 4) = k := by omega
      simp [h, h1, h2, hk]
  unfold formXYN
  rw [h]
  exact formXNN_fields w

/-! ### The fields a mask of R76 fixes -/

theorem fieldOp_and (w v : Word) : fieldOp (w &&& v) = fieldOp w &&& fieldOp v := BitVec.extractLsb'_and ..

theorem fieldN_and (w v : Word) : fieldN (w &&& v) = fieldN w &&& fieldN v := BitVec.extractLsb'_and ..

theorem fieldNN_and (w v : Word) : fieldNN (w &&& v) = fieldNN w &&& fieldNN v := BitVec.extractLsb'_and ..

/-- Mask 0xF000 fixes `op`. -/
theorem fields_of_maskOp {w v : Word} (h : w &&& 0xF000 = v) : fieldOp w = fieldOp v := by
  rw [← h, fieldOp_and]
  exact BitVec.and_allOnes.symm

/-- Mask 0xF00F fixes `op` and `n`. -/
theorem fields_of_maskOpN {w v : Word} (h : w &&& 0xF00F = v) : fieldOp w = fieldOp v ∧ fieldN w = fieldN v := by
  rw [← h, fieldOp_and, fieldN_and]
  exact ⟨BitVec.and_allOnes.symm, BitVec.and_allOnes.symm⟩

/-- Mask 0xF0FF fixes `op` and `nn`. -/
theorem fields_of_maskOpNN {w v : Word} (h : w &&& 0xF0FF = v) : fieldOp w = fieldOp v ∧ fieldNN w = fieldNN v := by
  rw [← h, fieldOp_and, fieldNN_and]
  exact ⟨BitVec.and_allOnes.symm, BitVec.and_allOnes.symm⟩

/-! ### The bytes of a word -/

@[simp] theorem wordOfBytes_bytesOfWord (w : Word) :
    wordOfBytes (w.extractLsb' 8 8) (w.extractLsb' 0 8) = w := by
  apply BitVec.eq_of_getLsbD_eq
  intro k hk
  simp only [wordOfBytes, BitVec.getLsbD_append, BitVec.getLsbD_extractLsb']
  by_cases h : k < 8
  · simp [h]
  · have h1 : k - 8 < 8 := by omega
    have h2 : 8 + (k - 8) = k := by omega
    simp [h, h1, h2]

end Sys2Proof
end

