-- ==== Sys2Proof/Laws/State.lean ====
section
/-! SUPPORT. One lemma per field per update of State, each true by rfl, so that no later proof unfolds a record update; and the same for
the reads of one register, one byte, one stack entry and one cell. -/

namespace Sys2Proof.Machine

theorem State.setV_v (s : State) (x : Nibble) (b : Byte) : (s.setV x b).v = s.v.set x.toNat b x.isLt := rfl
@[simp] theorem State.setV_i (s : State) (x : Nibble) (b : Byte) : (s.setV x b).i = s.i := rfl
@[simp] theorem State.setV_pc (s : State) (x : Nibble) (b : Byte) : (s.setV x b).pc = s.pc := rfl
@[simp] theorem State.setV_stack (s : State) (x : Nibble) (b : Byte) : (s.setV x b).stack = s.stack := rfl
@[simp] theorem State.setV_sp (s : State) (x : Nibble) (b : Byte) : (s.setV x b).sp = s.sp := rfl
@[simp] theorem State.setV_dt (s : State) (x : Nibble) (b : Byte) : (s.setV x b).dt = s.dt := rfl
@[simp] theorem State.setV_st (s : State) (x : Nibble) (b : Byte) : (s.setV x b).st = s.st := rfl
@[simp] theorem State.setV_mem (s : State) (x : Nibble) (b : Byte) : (s.setV x b).mem = s.mem := rfl
@[simp] theorem State.setV_fb (s : State) (x : Nibble) (b : Byte) : (s.setV x b).fb = s.fb := rfl
@[simp] theorem State.setV_keys (s : State) (x : Nibble) (b : Byte) : (s.setV x b).keys = s.keys := rfl
@[simp] theorem State.setV_redrawPending (s : State) (x : Nibble) (b : Byte) : (s.setV x b).redrawPending = s.redrawPending := rfl
@[simp] theorem State.setV_status (s : State) (x : Nibble) (b : Byte) : (s.setV x b).status = s.status := rfl
@[simp] theorem State.setV_cfg (s : State) (x : Nibble) (b : Byte) : (s.setV x b).cfg = s.cfg := rfl
@[simp] theorem State.setV_result (s : State) (x : Nibble) (b : Byte) : (s.setV x b).result = s.result := rfl
@[simp] theorem State.setV_draws (s : State) (x : Nibble) (b : Byte) : (s.setV x b).draws = s.draws := rfl
@[simp] theorem State.readByte_setV (s : State) (x : Nibble) (b : Byte) (m : Nat) : (s.setV x b).readByte m = s.readByte m := rfl
@[simp] theorem State.stackAt_setV (s : State) (x : Nibble) (b : Byte) (k : Nat) : (s.setV x b).stackAt k = s.stackAt k := rfl
@[simp] theorem State.cell_setV (s : State) (x : Nibble) (b : Byte) (k : Nat) : (s.setV x b).cell k = s.cell k := rfl
@[simp] theorem State.pressed_setV (s : State) (x : Nibble) (b : Byte) (k : Nibble) : (s.setV x b).pressed k = s.pressed k := rfl

@[simp] theorem State.setFlag_i (s : State) (f : Bool) : (s.setFlag f).i = s.i := rfl
@[simp] theorem State.setFlag_pc (s : State) (f : Bool) : (s.setFlag f).pc = s.pc := rfl
@[simp] theorem State.setFlag_stack (s : State) (f : Bool) : (s.setFlag f).stack = s.stack := rfl
@[simp] theorem State.setFlag_sp (s : State) (f : Bool) : (s.setFlag f).sp = s.sp := rfl
@[simp] theorem State.setFlag_dt (s : State) (f : Bool) : (s.setFlag f).dt = s.dt := rfl
@[simp] theorem State.setFlag_st (s : State) (f : Bool) : (s.setFlag f).st = s.st := rfl
@[simp] theorem State.setFlag_mem (s : State) (f : Bool) : (s.setFlag f).mem = s.mem := rfl
@[simp] theorem State.setFlag_fb (s : State) (f : Bool) : (s.setFlag f).fb = s.fb := rfl
@[simp] theorem State.setFlag_keys (s : State) (f : Bool) : (s.setFlag f).keys = s.keys := rfl
@[simp] theorem State.setFlag_redrawPending (s : State) (f : Bool) : (s.setFlag f).redrawPending = s.redrawPending := rfl
@[simp] theorem State.setFlag_status (s : State) (f : Bool) : (s.setFlag f).status = s.status := rfl
@[simp] theorem State.setFlag_cfg (s : State) (f : Bool) : (s.setFlag f).cfg = s.cfg := rfl
@[simp] theorem State.setFlag_result (s : State) (f : Bool) : (s.setFlag f).result = s.result := rfl
@[simp] theorem State.setFlag_draws (s : State) (f : Bool) : (s.setFlag f).draws = s.draws := rfl
@[simp] theorem State.readByte_setFlag (s : State) (f : Bool) (m : Nat) : (s.setFlag f).readByte m = s.readByte m := rfl
@[simp] theorem State.stackAt_setFlag (s : State) (f : Bool) (k : Nat) : (s.setFlag f).stackAt k = s.stackAt k := rfl
@[simp] theorem State.cell_setFlag (s : State) (f : Bool) (k : Nat) : (s.setFlag f).cell k = s.cell k := rfl
@[simp] theorem State.pressed_setFlag (s : State) (f : Bool) (k : Nibble) : (s.setFlag f).pressed k = s.pressed k := rfl

@[simp] theorem State.writeByte_v (s : State) (a : Nat) (b : Byte) : (s.writeByte a b).v = s.v := rfl
@[simp] theorem State.writeByte_i (s : State) (a : Nat) (b : Byte) : (s.writeByte a b).i = s.i := rfl
@[simp] theorem State.writeByte_pc (s : State) (a : Nat) (b : Byte) : (s.writeByte a b).pc = s.pc := rfl
@[simp] theorem State.writeByte_stack (s : State) (a : Nat) (b : Byte) : (s.writeByte a b).stack = s.stack := rfl
@[simp] theorem State.writeByte_sp (s : State) (a : Nat) (b : Byte) : (s.writeByte a b).sp = s.sp := rfl
@[simp] theorem State.writeByte_dt (s : State) (a : Nat) (b : Byte) : (s.writeByte a b).dt = s.dt := rfl
@[simp] theorem State.writeByte_st (s : State) (a : Nat) (b : Byte) : (s.writeByte a b).st = s.st := rfl
@[simp] theorem State.writeByte_mem (s : State) (a : Nat) (b : Byte) : (s.writeByte a b).mem = memWrite s.cfg.font s.mem a b := rfl
@[simp] theorem State.writeByte_fb (s : State) (a : Nat) (b : Byte) : (s.writeByte a b).fb = s.fb := rfl
@[simp] theorem State.writeByte_keys (s : State) (a : Nat) (b : Byte) : (s.writeByte a b).keys = s.keys := rfl
@[simp] theorem State.writeByte_redrawPending (s : State) (a : Nat) (b : Byte) : (s.writeByte a b).redrawPending = s.redrawPending := rfl
@[simp] theorem State.writeByte_status (s : State) (a : Nat) (b : Byte) : (s.writeByte a b).status = s.status := rfl
@[simp] theorem State.writeByte_cfg (s : State) (a : Nat) (b : Byte) : (s.writeByte a b).cfg = s.cfg := rfl
@[simp] theorem State.writeByte_result (s : State) (a : Nat) (b : Byte) : (s.writeByte a b).result = s.result := rfl
@[simp] theorem State.writeByte_draws (s : State) (a : Nat) (b : Byte) : (s.writeByte a b).draws = s.draws := rfl
@[simp] theorem State.getV_writeByte (s : State) (a : Nat) (b : Byte) (r : Nibble) : (s.writeByte a b).getV r = s.getV r := rfl
@[simp] theorem State.stackAt_writeByte (s : State) (a : Nat) (b : Byte) (k : Nat) : (s.writeByte a b).stackAt k = s.stackAt k := rfl
@[simp] theorem State.cell_writeByte (s : State) (a : Nat) (b : Byte) (k : Nat) : (s.writeByte a b).cell k = s.cell k := rfl
@[simp] theorem State.pressed_writeByte (s : State) (a : Nat) (b : Byte) (k : Nibble) : (s.writeByte a b).pressed k = s.pressed k := rfl

@[simp] theorem State.setI_v (s : State) (a : Word) : (s.setI a).v = s.v := rfl
@[simp] theorem State.setI_i (s : State) (a : Word) : (s.setI a).i = a := rfl
@[simp] theorem State.setI_pc (s : State) (a : Word) : (s.setI a).pc = s.pc := rfl
@[simp] theorem State.setI_stack (s : State) (a : Word) : (s.setI a).stack = s.stack := rfl
@[simp] theorem State.setI_sp (s : State) (a : Word) : (s.setI a).sp = s.sp := rfl
@[simp] theorem State.setI_dt (s : State) (a : Word) : (s.setI a).dt = s.dt := rfl
@[simp] theorem State.setI_st (s : State) (a : Word) : (s.setI a).st = s.st := rfl
@[simp] theorem State.setI_mem (s : State) (a : Word) : (s.setI a).mem = s.mem := rfl
@[simp] theorem State.setI_fb (s : State) (a : Word) : (s.setI a).fb = s.fb := rfl
@[simp] theorem State.setI_keys (s : State) (a : Word) : (s.setI a).keys = s.keys := rfl
@[simp] theorem State.setI_redrawPending (s : State) (a : Word) : (s.setI a).redrawPending = s.redrawPending := rfl
@[simp] theorem State.setI_status (s : State) (a : Word) : (s.setI a).status = s.status := rfl
@[simp] theorem State.setI_cfg (s : State) (a : Word) : (s.setI a).cfg = s.cfg := rfl
@[simp] theorem State.setI_result (s : State) (a : Word) : (s.setI a).result = s.result := rfl
@[simp] theorem State.setI_draws (s : State) (a : Word) : (s.setI a).draws = s.draws := rfl
@[simp] theorem State.getV_setI (s : State) (a : Word) (r : Nibble) : (s.setI a).getV r = s.getV r := rfl
@[simp] theorem State.readByte_setI (s : State) (a : Word) (m : Nat) : (s.setI a).readByte m = s.readByte m := rfl
@[simp] theorem State.stackAt_setI (s : State) (a : Word) (k : Nat) : (s.setI a).stackAt k = s.stackAt k := rfl
@[simp] theorem State.cell_setI (s : State) (a : Word) (k : Nat) : (s.setI a).cell k = s.cell k := rfl
@[simp] theorem State.pressed_setI (s : State) (a : Word) (k : Nibble) : (s.setI a).pressed k = s.pressed k := rfl

@[simp] theorem State.setDT_v (s : State) (b : Byte) : (s.setDT b).v = s.v := rfl
@[simp] theorem State.setDT_i (s : State) (b : Byte) : (s.setDT b).i = s.i := rfl
@[simp] theorem State.setDT_pc (s : State) (b : Byte) : (s.setDT b).pc = s.pc := rfl
@[simp] theorem State.setDT_stack (s : State) (b : Byte) : (s.setDT b).stack = s.stack := rfl
@[simp] theorem State.setDT_sp (s : State) (b : Byte) : (s.setDT b).sp = s.sp := rfl
@[simp] theorem State.setDT_dt (s : State) (b : Byte) : (s.setDT b).dt = b := rfl
@[simp] theorem State.setDT_st (s : State) (b : Byte) : (s.setDT b).st = s.st := rfl
@[simp] theorem State.setDT_mem (s : State) (b : Byte) : (s.setDT b).mem = s.mem := rfl
@[simp] theorem State.setDT_fb (s : State) (b : Byte) : (s.setDT b).fb = s.fb := rfl
@[simp] theorem State.setDT_keys (s : State) (b : Byte) : (s.setDT b).keys = s.keys := rfl
@[simp] theorem State.setDT_redrawPending (s : State) (b : Byte) : (s.setDT b).redrawPending = s.redrawPending := rfl
@[simp] theorem State.setDT_status (s : State) (b : Byte) : (s.setDT b).status = s.status := rfl
@[simp] theorem State.setDT_cfg (s : State) (b : Byte) : (s.setDT b).cfg = s.cfg := rfl
@[simp] theorem State.setDT_result (s : State) (b : Byte) : (s.setDT b).result = s.result := rfl
@[simp] theorem State.setDT_draws (s : State) (b : Byte) : (s.setDT b).draws = s.draws := rfl
@[simp] theorem State.getV_setDT (s : State) (b : Byte) (r : Nibble) : (s.setDT b).getV r = s.getV r := rfl
@[simp] theorem State.readByte_setDT (s : State) (b : Byte) (m : Nat) : (s.setDT b).readByte m = s.readByte m := rfl
@[simp] theorem State.stackAt_setDT (s : State) (b : Byte) (k : Nat) : (s.setDT b).stackAt k = s.stackAt k := rfl
@[simp] theorem State.cell_setDT (s : State) (b : Byte) (k : Nat) : (s.setDT b).cell k = s.cell k := rfl
@[simp] theorem State.pressed_setDT (s : State) (b : Byte) (k : Nibble) : (s.setDT b).pressed k = s.pressed k := rfl

@[simp] theorem State.setST_v (s : State) (b : Byte) : (s.setST b).v = s.v := rfl
@[simp] theorem State.setST_i (s : State) (b : Byte) : (s.setST b).i = s.i := rfl
@[simp] theorem State.setST_pc (s : State) (b : Byte) : (s.setST b).pc = s.pc := rfl
@[simp] theorem State.setST_stack (s : State) (b : Byte) : (s.setST b).stack = s.stack := rfl
@[simp] theorem State.setST_sp (s : State) (b : Byte) : (s.setST b).sp = s.sp := rfl
@[simp] theorem State.setST_dt (s : State) (b : Byte) : (s.setST b).dt = s.dt := rfl
@[simp] theorem State.setST_st (s : State) (b : Byte) : (s.setST b).st = b := rfl
@[simp] theorem State.setST_mem (s : State) (b : Byte) : (s.setST b).mem = s.mem := rfl
@[simp] theorem State.setST_fb (s : State) (b : Byte) : (s.setST b).fb = s.fb := rfl
@[simp] theorem State.setST_keys (s : State) (b : Byte) : (s.setST b).keys = s.keys := rfl
@[simp] theorem State.setST_redrawPending (s : State) (b : Byte) : (s.setST b).redrawPending = s.redrawPending := rfl
@[simp] theorem State.setST_status (s : State) (b : Byte) : (s.setST b).status = s.status := rfl
@[simp] theorem State.setST_cfg (s : State) (b : Byte) : (s.setST b).cfg = s.cfg := rfl
@[simp] theorem State.setST_result (s : State) (b : Byte) : (s.setST b).result = s.result := rfl
@[simp] theorem State.setST_draws (s : State) (b : Byte) : (s.setST b).draws = s.draws := rfl
@[simp] theorem State.getV_setST (s : State) (b : Byte) (r : Nibble) : (s.setST b).getV r = s.getV r := rfl
@[simp] theorem State.readByte_setST (s : State) (b : Byte) (m : Nat) : (s.setST b).readByte m = s.readByte m := rfl
@[simp] theorem State.stackAt_setST (s : State) (b : Byte) (k : Nat) : (s.setST b).stackAt k = s.stackAt k := rfl
@[simp] theorem State.cell_setST (s : State) (b : Byte) (k : Nat) : (s.setST b).cell k = s.cell k := rfl
@[simp] theorem State.pressed_setST (s : State) (b : Byte) (k : Nibble) : (s.setST b).pressed k = s.pressed k := rfl

@[simp] theorem State.push_v (s : State) (a : Word) (h : s.sp.val < 16) : (s.push a h).v = s.v := rfl
@[simp] theorem State.push_i (s : State) (a : Word) (h : s.sp.val < 16) : (s.push a h).i = s.i := rfl
@[simp] theorem State.push_pc (s : State) (a : Word) (h : s.sp.val < 16) : (s.push a h).pc = s.pc := rfl
@[simp] theorem State.push_stack (s : State) (a : Word) (h : s.sp.val < 16) : (s.push a h).stack = s.stack.set s.sp.val a h := rfl
@[simp] theorem State.push_sp (s : State) (a : Word) (h : s.sp.val < 16) : (s.push a h).sp = ⟨s.sp.val + 1, Nat.succ_lt_succ h⟩ := rfl
@[simp] theorem State.push_dt (s : State) (a : Word) (h : s.sp.val < 16) : (s.push a h).dt = s.dt := rfl
@[simp] theorem State.push_st (s : State) (a : Word) (h : s.sp.val < 16) : (s.push a h).st = s.st := rfl
@[simp] theorem State.push_mem (s : State) (a : Word) (h : s.sp.val < 16) : (s.push a h).mem = s.mem := rfl
@[simp] theorem State.push_fb (s : State) (a : Word) (h : s.sp.val < 16) : (s.push a h).fb = s.fb := rfl
@[simp] theorem State.push_keys (s : State) (a : Word) (h : s.sp.val < 16) : (s.push a h).keys = s.keys := rfl
@[simp] theorem State.push_redrawPending (s : State) (a : Word) (h : s.sp.val < 16) : (s.push a h).redrawPending = s.redrawPending := rfl
@[simp] theorem State.push_status (s : State) (a : Word) (h : s.sp.val < 16) : (s.push a h).status = s.status := rfl
@[simp] theorem State.push_cfg (s : State) (a : Word) (h : s.sp.val < 16) : (s.push a h).cfg = s.cfg := rfl
@[simp] theorem State.push_result (s : State) (a : Word) (h : s.sp.val < 16) : (s.push a h).result = s.result := rfl
@[simp] theorem State.push_draws (s : State) (a : Word) (h : s.sp.val < 16) : (s.push a h).draws = s.draws := rfl
@[simp] theorem State.getV_push (s : State) (a : Word) (h : s.sp.val < 16) (r : Nibble) : (s.push a h).getV r = s.getV r := rfl
@[simp] theorem State.readByte_push (s : State) (a : Word) (h : s.sp.val < 16) (m : Nat) : (s.push a h).readByte m = s.readByte m := rfl
@[simp] theorem State.cell_push (s : State) (a : Word) (h : s.sp.val < 16) (k : Nat) : (s.push a h).cell k = s.cell k := rfl
@[simp] theorem State.pressed_push (s : State) (a : Word) (h : s.sp.val < 16) (k : Nibble) : (s.push a h).pressed k = s.pressed k := rfl

@[simp] theorem State.pop_v (s : State) : s.pop.v = s.v := rfl
@[simp] theorem State.pop_i (s : State) : s.pop.i = s.i := rfl
@[simp] theorem State.pop_pc (s : State) : s.pop.pc = s.pc := rfl
@[simp] theorem State.pop_stack (s : State) : s.pop.stack = s.stack := rfl
@[simp] theorem State.pop_sp (s : State) : s.pop.sp = ⟨s.sp.val - 1, Nat.lt_of_le_of_lt (Nat.sub_le _ _) s.sp.isLt⟩ := rfl
@[simp] theorem State.pop_dt (s : State) : s.pop.dt = s.dt := rfl
@[simp] theorem State.pop_st (s : State) : s.pop.st = s.st := rfl
@[simp] theorem State.pop_mem (s : State) : s.pop.mem = s.mem := rfl
@[simp] theorem State.pop_fb (s : State) : s.pop.fb = s.fb := rfl
@[simp] theorem State.pop_keys (s : State) : s.pop.keys = s.keys := rfl
@[simp] theorem State.pop_redrawPending (s : State) : s.pop.redrawPending = s.redrawPending := rfl
@[simp] theorem State.pop_status (s : State) : s.pop.status = s.status := rfl
@[simp] theorem State.pop_cfg (s : State) : s.pop.cfg = s.cfg := rfl
@[simp] theorem State.pop_result (s : State) : s.pop.result = s.result := rfl
@[simp] theorem State.pop_draws (s : State) : s.pop.draws = s.draws := rfl
@[simp] theorem State.getV_pop (s : State) (r : Nibble) : s.pop.getV r = s.getV r := rfl
@[simp] theorem State.readByte_pop (s : State) (m : Nat) : s.pop.readByte m = s.readByte m := rfl
@[simp] theorem State.stackAt_pop (s : State) (k : Nat) : s.pop.stackAt k = s.stackAt k := rfl
@[simp] theorem State.cell_pop (s : State) (k : Nat) : s.pop.cell k = s.cell k := rfl
@[simp] theorem State.pressed_pop (s : State) (k : Nibble) : s.pop.pressed k = s.pressed k := rfl

@[simp] theorem State.setDisplay_v (s : State) (fb : BitVec 2048) : (s.setDisplay fb).v = s.v := rfl
@[simp] theorem State.setDisplay_i (s : State) (fb : BitVec 2048) : (s.setDisplay fb).i = s.i := rfl
@[simp] theorem State.setDisplay_pc (s : State) (fb : BitVec 2048) : (s.setDisplay fb).pc = s.pc := rfl
@[simp] theorem State.setDisplay_stack (s : State) (fb : BitVec 2048) : (s.setDisplay fb).stack = s.stack := rfl
@[simp] theorem State.setDisplay_sp (s : State) (fb : BitVec 2048) : (s.setDisplay fb).sp = s.sp := rfl
@[simp] theorem State.setDisplay_dt (s : State) (fb : BitVec 2048) : (s.setDisplay fb).dt = s.dt := rfl
@[simp] theorem State.setDisplay_st (s : State) (fb : BitVec 2048) : (s.setDisplay fb).st = s.st := rfl
@[simp] theorem State.setDisplay_mem (s : State) (fb : BitVec 2048) : (s.setDisplay fb).mem = s.mem := rfl
@[simp] theorem State.setDisplay_fb (s : State) (fb : BitVec 2048) : (s.setDisplay fb).fb = fb := rfl
@[simp] theorem State.setDisplay_keys (s : State) (fb : BitVec 2048) : (s.setDisplay fb).keys = s.keys := rfl
@[simp] theorem State.setDisplay_redrawPending (s : State) (fb : BitVec 2048) : (s.setDisplay fb).redrawPending = true := rfl
@[simp] theorem State.setDisplay_status (s : State) (fb : BitVec 2048) : (s.setDisplay fb).status = s.status := rfl
@[simp] theorem State.setDisplay_cfg (s : State) (fb : BitVec 2048) : (s.setDisplay fb).cfg = s.cfg := rfl
@[simp] theorem State.setDisplay_result (s : State) (fb : BitVec 2048) : (s.setDisplay fb).result = s.result := rfl
@[simp] theorem State.setDisplay_draws (s : State) (fb : BitVec 2048) : (s.setDisplay fb).draws = s.draws := rfl
@[simp] theorem State.getV_setDisplay (s : State) (fb : BitVec 2048) (r : Nibble) : (s.setDisplay fb).getV r = s.getV r := rfl
@[simp] theorem State.readByte_setDisplay (s : State) (fb : BitVec 2048) (m : Nat) : (s.setDisplay fb).readByte m = s.readByte m := rfl
@[simp] theorem State.stackAt_setDisplay (s : State) (fb : BitVec 2048) (k : Nat) : (s.setDisplay fb).stackAt k = s.stackAt k := rfl
@[simp] theorem State.pressed_setDisplay (s : State) (fb : BitVec 2048) (k : Nibble) : (s.setDisplay fb).pressed k = s.pressed k := rfl

@[simp] theorem State.endAt_v (s : State) (next : Word) : (s.endAt next).v = s.v := rfl
@[simp] theorem State.endAt_i (s : State) (next : Word) : (s.endAt next).i = s.i := rfl
@[simp] theorem State.endAt_pc (s : State) (next : Word) : (s.endAt next).pc = next := rfl
@[simp] theorem State.endAt_stack (s : State) (next : Word) : (s.endAt next).stack = s.stack := rfl
@[simp] theorem State.endAt_sp (s : State) (next : Word) : (s.endAt next).sp = s.sp := rfl
@[simp] theorem State.endAt_dt (s : State) (next : Word) : (s.endAt next).dt = s.dt := rfl
@[simp] theorem State.endAt_st (s : State) (next : Word) : (s.endAt next).st = s.st := rfl
@[simp] theorem State.endAt_mem (s : State) (next : Word) : (s.endAt next).mem = s.mem := rfl
@[simp] theorem State.endAt_fb (s : State) (next : Word) : (s.endAt next).fb = s.fb := rfl
@[simp] theorem State.endAt_keys (s : State) (next : Word) : (s.endAt next).keys = s.keys := rfl
@[simp] theorem State.endAt_redrawPending (s : State) (next : Word) : (s.endAt next).redrawPending = s.redrawPending := rfl
@[simp] theorem State.endAt_status (s : State) (next : Word) : (s.endAt next).status = s.status := rfl
@[simp] theorem State.endAt_cfg (s : State) (next : Word) : (s.endAt next).cfg = s.cfg := rfl
@[simp] theorem State.endAt_result (s : State) (next : Word) : (s.endAt next).result = .completed := rfl
@[simp] theorem State.endAt_draws (s : State) (next : Word) : (s.endAt next).draws = s.draws := rfl
@[simp] theorem State.getV_endAt (s : State) (next : Word) (r : Nibble) : (s.endAt next).getV r = s.getV r := rfl
@[simp] theorem State.readByte_endAt (s : State) (next : Word) (m : Nat) : (s.endAt next).readByte m = s.readByte m := rfl
@[simp] theorem State.stackAt_endAt (s : State) (next : Word) (k : Nat) : (s.endAt next).stackAt k = s.stackAt k := rfl
@[simp] theorem State.cell_endAt (s : State) (next : Word) (k : Nat) : (s.endAt next).cell k = s.cell k := rfl
@[simp] theorem State.pressed_endAt (s : State) (next : Word) (k : Nibble) : (s.endAt next).pressed k = s.pressed k := rfl

@[simp] theorem State.keyWait_v (s : State) : s.keyWait.v = s.v := rfl
@[simp] theorem State.keyWait_i (s : State) : s.keyWait.i = s.i := rfl
@[simp] theorem State.keyWait_pc (s : State) : s.keyWait.pc = s.pc := rfl
@[simp] theorem State.keyWait_stack (s : State) : s.keyWait.stack = s.stack := rfl
@[simp] theorem State.keyWait_sp (s : State) : s.keyWait.sp = s.sp := rfl
@[simp] theorem State.keyWait_dt (s : State) : s.keyWait.dt = s.dt := rfl
@[simp] theorem State.keyWait_st (s : State) : s.keyWait.st = s.st := rfl
@[simp] theorem State.keyWait_mem (s : State) : s.keyWait.mem = s.mem := rfl
@[simp] theorem State.keyWait_fb (s : State) : s.keyWait.fb = s.fb := rfl
@[simp] theorem State.keyWait_keys (s : State) : s.keyWait.keys = s.keys := rfl
@[simp] theorem State.keyWait_redrawPending (s : State) : s.keyWait.redrawPending = s.redrawPending := rfl
@[simp] theorem State.keyWait_status (s : State) : s.keyWait.status = s.status := rfl
@[simp] theorem State.keyWait_cfg (s : State) : s.keyWait.cfg = s.cfg := rfl
@[simp] theorem State.keyWait_result (s : State) : s.keyWait.result = .waitingForKey := rfl
@[simp] theorem State.keyWait_draws (s : State) : s.keyWait.draws = s.draws := rfl
@[simp] theorem State.getV_keyWait (s : State) (r : Nibble) : s.keyWait.getV r = s.getV r := rfl
@[simp] theorem State.readByte_keyWait (s : State) (m : Nat) : s.keyWait.readByte m = s.readByte m := rfl
@[simp] theorem State.stackAt_keyWait (s : State) (k : Nat) : s.keyWait.stackAt k = s.stackAt k := rfl
@[simp] theorem State.cell_keyWait (s : State) (k : Nat) : s.keyWait.cell k = s.cell k := rfl
@[simp] theorem State.pressed_keyWait (s : State) (k : Nibble) : s.keyWait.pressed k = s.pressed k := rfl

@[simp] theorem State.afterDraw_v (s : State) : s.afterDraw.v = s.v := rfl
@[simp] theorem State.afterDraw_i (s : State) : s.afterDraw.i = s.i := rfl
@[simp] theorem State.afterDraw_pc (s : State) : s.afterDraw.pc = s.pc := rfl
@[simp] theorem State.afterDraw_stack (s : State) : s.afterDraw.stack = s.stack := rfl
@[simp] theorem State.afterDraw_sp (s : State) : s.afterDraw.sp = s.sp := rfl
@[simp] theorem State.afterDraw_dt (s : State) : s.afterDraw.dt = s.dt := rfl
@[simp] theorem State.afterDraw_st (s : State) : s.afterDraw.st = s.st := rfl
@[simp] theorem State.afterDraw_mem (s : State) : s.afterDraw.mem = s.mem := rfl
@[simp] theorem State.afterDraw_fb (s : State) : s.afterDraw.fb = s.fb := rfl
@[simp] theorem State.afterDraw_keys (s : State) : s.afterDraw.keys = s.keys := rfl
@[simp] theorem State.afterDraw_redrawPending (s : State) : s.afterDraw.redrawPending = s.redrawPending := rfl
@[simp] theorem State.afterDraw_status (s : State) : s.afterDraw.status = s.status := rfl
@[simp] theorem State.afterDraw_cfg (s : State) : s.afterDraw.cfg = s.cfg := rfl
@[simp] theorem State.afterDraw_result (s : State) : s.afterDraw.result = s.result := rfl
@[simp] theorem State.afterDraw_draws (s : State) : s.afterDraw.draws = s.draws + 1 := rfl
@[simp] theorem State.getV_afterDraw (s : State) (r : Nibble) : s.afterDraw.getV r = s.getV r := rfl
@[simp] theorem State.readByte_afterDraw (s : State) (m : Nat) : s.afterDraw.readByte m = s.readByte m := rfl
@[simp] theorem State.stackAt_afterDraw (s : State) (k : Nat) : s.afterDraw.stackAt k = s.stackAt k := rfl
@[simp] theorem State.cell_afterDraw (s : State) (k : Nat) : s.afterDraw.cell k = s.cell k := rfl
@[simp] theorem State.pressed_afterDraw (s : State) (k : Nibble) : s.afterDraw.pressed k = s.pressed k := rfl

@[simp] theorem State.tick_v (s : State) : s.tick.v = s.v := rfl
@[simp] theorem State.tick_i (s : State) : s.tick.i = s.i := rfl
@[simp] theorem State.tick_pc (s : State) : s.tick.pc = s.pc := rfl
@[simp] theorem State.tick_stack (s : State) : s.tick.stack = s.stack := rfl
@[simp] theorem State.tick_sp (s : State) : s.tick.sp = s.sp := rfl
@[simp] theorem State.tick_dt (s : State) : s.tick.dt = tickTimer s.dt := rfl
@[simp] theorem State.tick_st (s : State) : s.tick.st = tickTimer s.st := rfl
@[simp] theorem State.tick_mem (s : State) : s.tick.mem = s.mem := rfl
@[simp] theorem State.tick_fb (s : State) : s.tick.fb = s.fb := rfl
@[simp] theorem State.tick_keys (s : State) : s.tick.keys = s.keys := rfl
@[simp] theorem State.tick_redrawPending (s : State) : s.tick.redrawPending = s.redrawPending := rfl
@[simp] theorem State.tick_status (s : State) : s.tick.status = s.status := rfl
@[simp] theorem State.tick_cfg (s : State) : s.tick.cfg = s.cfg := rfl
@[simp] theorem State.tick_result (s : State) : s.tick.result = s.result := rfl
@[simp] theorem State.tick_draws (s : State) : s.tick.draws = s.draws := rfl
@[simp] theorem State.getV_tick (s : State) (r : Nibble) : s.tick.getV r = s.getV r := rfl
@[simp] theorem State.readByte_tick (s : State) (m : Nat) : s.tick.readByte m = s.readByte m := rfl
@[simp] theorem State.stackAt_tick (s : State) (k : Nat) : s.tick.stackAt k = s.stackAt k := rfl
@[simp] theorem State.cell_tick (s : State) (k : Nat) : s.tick.cell k = s.cell k := rfl
@[simp] theorem State.pressed_tick (s : State) (k : Nibble) : s.tick.pressed k = s.pressed k := rfl

@[simp] theorem takeFault_v (c : FatalCause) (info : Word) (s : State) : (takeFault c info s).v = s.v := rfl
@[simp] theorem takeFault_i (c : FatalCause) (info : Word) (s : State) : (takeFault c info s).i = s.i := rfl
@[simp] theorem takeFault_pc (c : FatalCause) (info : Word) (s : State) : (takeFault c info s).pc = s.pc := rfl
@[simp] theorem takeFault_stack (c : FatalCause) (info : Word) (s : State) : (takeFault c info s).stack = s.stack := rfl
@[simp] theorem takeFault_sp (c : FatalCause) (info : Word) (s : State) : (takeFault c info s).sp = s.sp := rfl
@[simp] theorem takeFault_dt (c : FatalCause) (info : Word) (s : State) : (takeFault c info s).dt = s.dt := rfl
@[simp] theorem takeFault_st (c : FatalCause) (info : Word) (s : State) : (takeFault c info s).st = s.st := rfl
@[simp] theorem takeFault_mem (c : FatalCause) (info : Word) (s : State) : (takeFault c info s).mem = s.mem := rfl
@[simp] theorem takeFault_fb (c : FatalCause) (info : Word) (s : State) : (takeFault c info s).fb = s.fb := rfl
@[simp] theorem takeFault_keys (c : FatalCause) (info : Word) (s : State) : (takeFault c info s).keys = s.keys := rfl
@[simp] theorem takeFault_redrawPending (c : FatalCause) (info : Word) (s : State) : (takeFault c info s).redrawPending = s.redrawPending := rfl
@[simp] theorem takeFault_status (c : FatalCause) (info : Word) (s : State) : (takeFault c info s).status = .faulted c info := rfl
@[simp] theorem takeFault_cfg (c : FatalCause) (info : Word) (s : State) : (takeFault c info s).cfg = s.cfg := rfl
@[simp] theorem takeFault_result (c : FatalCause) (info : Word) (s : State) : (takeFault c info s).result = .fatal c info := rfl
@[simp] theorem takeFault_draws (c : FatalCause) (info : Word) (s : State) : (takeFault c info s).draws = s.draws := rfl
@[simp] theorem State.getV_takeFault (c : FatalCause) (info : Word) (s : State) (r : Nibble) : (takeFault c info s).getV r = s.getV r := rfl
@[simp] theorem State.readByte_takeFault (c : FatalCause) (info : Word) (s : State) (m : Nat) : (takeFault c info s).readByte m = s.readByte m := rfl
@[simp] theorem State.stackAt_takeFault (c : FatalCause) (info : Word) (s : State) (k : Nat) : (takeFault c info s).stackAt k = s.stackAt k := rfl
@[simp] theorem State.cell_takeFault (c : FatalCause) (info : Word) (s : State) (k : Nat) : (takeFault c info s).cell k = s.cell k := rfl
@[simp] theorem State.pressed_takeFault (c : FatalCause) (info : Word) (s : State) (k : Nibble) : (takeFault c info s).pressed k = s.pressed k := rfl

@[simp] theorem advanceI_v (x : Nibble) (s : State) : (advanceI x s).v = s.v := rfl
@[simp] theorem advanceI_i (x : Nibble) (s : State) : (advanceI x s).i = s.i + x.setWidth 16 + 1 := rfl
@[simp] theorem advanceI_pc (x : Nibble) (s : State) : (advanceI x s).pc = s.pc := rfl
@[simp] theorem advanceI_stack (x : Nibble) (s : State) : (advanceI x s).stack = s.stack := rfl
@[simp] theorem advanceI_sp (x : Nibble) (s : State) : (advanceI x s).sp = s.sp := rfl
@[simp] theorem advanceI_dt (x : Nibble) (s : State) : (advanceI x s).dt = s.dt := rfl
@[simp] theorem advanceI_st (x : Nibble) (s : State) : (advanceI x s).st = s.st := rfl
@[simp] theorem advanceI_mem (x : Nibble) (s : State) : (advanceI x s).mem = s.mem := rfl
@[simp] theorem advanceI_fb (x : Nibble) (s : State) : (advanceI x s).fb = s.fb := rfl
@[simp] theorem advanceI_keys (x : Nibble) (s : State) : (advanceI x s).keys = s.keys := rfl
@[simp] theorem advanceI_redrawPending (x : Nibble) (s : State) : (advanceI x s).redrawPending = s.redrawPending := rfl
@[simp] theorem advanceI_status (x : Nibble) (s : State) : (advanceI x s).status = s.status := rfl
@[simp] theorem advanceI_cfg (x : Nibble) (s : State) : (advanceI x s).cfg = s.cfg := rfl
@[simp] theorem advanceI_result (x : Nibble) (s : State) : (advanceI x s).result = s.result := rfl
@[simp] theorem advanceI_draws (x : Nibble) (s : State) : (advanceI x s).draws = s.draws := rfl
@[simp] theorem State.getV_advanceI (x : Nibble) (s : State) (r : Nibble) : (advanceI x s).getV r = s.getV r := rfl
@[simp] theorem State.readByte_advanceI (x : Nibble) (s : State) (m : Nat) : (advanceI x s).readByte m = s.readByte m := rfl
@[simp] theorem State.stackAt_advanceI (x : Nibble) (s : State) (k : Nat) : (advanceI x s).stackAt k = s.stackAt k := rfl
@[simp] theorem State.cell_advanceI (x : Nibble) (s : State) (k : Nat) : (advanceI x s).cell k = s.cell k := rfl
@[simp] theorem State.pressed_advanceI (x : Nibble) (s : State) (k : Nibble) : (advanceI x s).pressed k = s.pressed k := rfl

@[simp] theorem State.haltedCycle_v (s : State) : s.haltedCycle.v = s.v := rfl
@[simp] theorem State.haltedCycle_i (s : State) : s.haltedCycle.i = s.i := rfl
@[simp] theorem State.haltedCycle_pc (s : State) : s.haltedCycle.pc = s.pc := rfl
@[simp] theorem State.haltedCycle_stack (s : State) : s.haltedCycle.stack = s.stack := rfl
@[simp] theorem State.haltedCycle_sp (s : State) : s.haltedCycle.sp = s.sp := rfl
@[simp] theorem State.haltedCycle_dt (s : State) : s.haltedCycle.dt = s.dt := rfl
@[simp] theorem State.haltedCycle_st (s : State) : s.haltedCycle.st = s.st := rfl
@[simp] theorem State.haltedCycle_mem (s : State) : s.haltedCycle.mem = s.mem := rfl
@[simp] theorem State.haltedCycle_fb (s : State) : s.haltedCycle.fb = s.fb := rfl
@[simp] theorem State.haltedCycle_keys (s : State) : s.haltedCycle.keys = s.keys := rfl
@[simp] theorem State.haltedCycle_redrawPending (s : State) : s.haltedCycle.redrawPending = s.redrawPending := rfl
@[simp] theorem State.haltedCycle_status (s : State) : s.haltedCycle.status = s.status := rfl
@[simp] theorem State.haltedCycle_cfg (s : State) : s.haltedCycle.cfg = s.cfg := rfl
@[simp] theorem State.haltedCycle_result (s : State) : s.haltedCycle.result = .idle := rfl
@[simp] theorem State.haltedCycle_draws (s : State) : s.haltedCycle.draws = s.draws := rfl
@[simp] theorem State.getV_haltedCycle (s : State) (r : Nibble) : s.haltedCycle.getV r = s.getV r := rfl
@[simp] theorem State.readByte_haltedCycle (s : State) (m : Nat) : s.haltedCycle.readByte m = s.readByte m := rfl
@[simp] theorem State.stackAt_haltedCycle (s : State) (k : Nat) : s.haltedCycle.stackAt k = s.stackAt k := rfl
@[simp] theorem State.cell_haltedCycle (s : State) (k : Nat) : s.haltedCycle.cell k = s.cell k := rfl
@[simp] theorem State.pressed_haltedCycle (s : State) (k : Nibble) : s.haltedCycle.pressed k = s.pressed k := rfl

@[simp] theorem State.reportUnknown_v (w : Word) (s : State) : (s.reportUnknown w).v = s.v := rfl
@[simp] theorem State.reportUnknown_i (w : Word) (s : State) : (s.reportUnknown w).i = s.i := rfl
@[simp] theorem State.reportUnknown_pc (w : Word) (s : State) : (s.reportUnknown w).pc = s.pc := rfl
@[simp] theorem State.reportUnknown_stack (w : Word) (s : State) : (s.reportUnknown w).stack = s.stack := rfl
@[simp] theorem State.reportUnknown_sp (w : Word) (s : State) : (s.reportUnknown w).sp = s.sp := rfl
@[simp] theorem State.reportUnknown_dt (w : Word) (s : State) : (s.reportUnknown w).dt = s.dt := rfl
@[simp] theorem State.reportUnknown_st (w : Word) (s : State) : (s.reportUnknown w).st = s.st := rfl
@[simp] theorem State.reportUnknown_mem (w : Word) (s : State) : (s.reportUnknown w).mem = s.mem := rfl
@[simp] theorem State.reportUnknown_fb (w : Word) (s : State) : (s.reportUnknown w).fb = s.fb := rfl
@[simp] theorem State.reportUnknown_keys (w : Word) (s : State) : (s.reportUnknown w).keys = s.keys := rfl
@[simp] theorem State.reportUnknown_redrawPending (w : Word) (s : State) : (s.reportUnknown w).redrawPending = s.redrawPending := rfl
@[simp] theorem State.reportUnknown_status (w : Word) (s : State) : (s.reportUnknown w).status = s.status := rfl
@[simp] theorem State.reportUnknown_cfg (w : Word) (s : State) : (s.reportUnknown w).cfg = s.cfg := rfl
@[simp] theorem State.reportUnknown_result (w : Word) (s : State) : (s.reportUnknown w).result = .unknownInstruction w := rfl
@[simp] theorem State.reportUnknown_draws (w : Word) (s : State) : (s.reportUnknown w).draws = s.draws := rfl
@[simp] theorem State.getV_reportUnknown (w : Word) (s : State) (r : Nibble) : (s.reportUnknown w).getV r = s.getV r := rfl
@[simp] theorem State.readByte_reportUnknown (w : Word) (s : State) (m : Nat) : (s.reportUnknown w).readByte m = s.readByte m := rfl
@[simp] theorem State.stackAt_reportUnknown (w : Word) (s : State) (k : Nat) : (s.reportUnknown w).stackAt k = s.stackAt k := rfl
@[simp] theorem State.cell_reportUnknown (w : Word) (s : State) (k : Nat) : (s.reportUnknown w).cell k = s.cell k := rfl
@[simp] theorem State.pressed_reportUnknown (w : Word) (s : State) (k : Nibble) : (s.reportUnknown w).pressed k = s.pressed k := rfl

@[simp] theorem State.setKey_v (k : Nibble) (d : Bool) (s : State) : (s.setKey k d).v = s.v := rfl
@[simp] theorem State.setKey_i (k : Nibble) (d : Bool) (s : State) : (s.setKey k d).i = s.i := rfl
@[simp] theorem State.setKey_pc (k : Nibble) (d : Bool) (s : State) : (s.setKey k d).pc = s.pc := rfl
@[simp] theorem State.setKey_stack (k : Nibble) (d : Bool) (s : State) : (s.setKey k d).stack = s.stack := rfl
@[simp] theorem State.setKey_sp (k : Nibble) (d : Bool) (s : State) : (s.setKey k d).sp = s.sp := rfl
@[simp] theorem State.setKey_dt (k : Nibble) (d : Bool) (s : State) : (s.setKey k d).dt = s.dt := rfl
@[simp] theorem State.setKey_st (k : Nibble) (d : Bool) (s : State) : (s.setKey k d).st = s.st := rfl
@[simp] theorem State.setKey_mem (k : Nibble) (d : Bool) (s : State) : (s.setKey k d).mem = s.mem := rfl
@[simp] theorem State.setKey_fb (k : Nibble) (d : Bool) (s : State) : (s.setKey k d).fb = s.fb := rfl
@[simp] theorem State.setKey_keys (k : Nibble) (d : Bool) (s : State) : (s.setKey k d).keys = s.keys.set k.toNat (if d then 1 else 0) k.isLt := rfl
@[simp] theorem State.setKey_redrawPending (k : Nibble) (d : Bool) (s : State) : (s.setKey k d).redrawPending = s.redrawPending := rfl
@[simp] theorem State.setKey_status (k : Nibble) (d : Bool) (s : State) : (s.setKey k d).status = s.status := rfl
@[simp] theorem State.setKey_cfg (k : Nibble) (d : Bool) (s : State) : (s.setKey k d).cfg = s.cfg := rfl
@[simp] theorem State.setKey_result (k : Nibble) (d : Bool) (s : State) : (s.setKey k d).result = s.result := rfl
@[simp] theorem State.setKey_draws (k : Nibble) (d : Bool) (s : State) : (s.setKey k d).draws = s.draws := rfl
@[simp] theorem State.getV_setKey (k : Nibble) (d : Bool) (s : State) (r : Nibble) : (s.setKey k d).getV r = s.getV r := rfl
@[simp] theorem State.readByte_setKey (k : Nibble) (d : Bool) (s : State) (m : Nat) : (s.setKey k d).readByte m = s.readByte m := rfl
@[simp] theorem State.stackAt_setKey (k : Nibble) (d : Bool) (s : State) (n : Nat) : (s.setKey k d).stackAt n = s.stackAt n := rfl
@[simp] theorem State.cell_setKey (k : Nibble) (d : Bool) (s : State) (n : Nat) : (s.setKey k d).cell n = s.cell n := rfl

@[simp] theorem State.presentDone_v (s : State) : s.presentDone.v = s.v := rfl
@[simp] theorem State.presentDone_i (s : State) : s.presentDone.i = s.i := rfl
@[simp] theorem State.presentDone_pc (s : State) : s.presentDone.pc = s.pc := rfl
@[simp] theorem State.presentDone_stack (s : State) : s.presentDone.stack = s.stack := rfl
@[simp] theorem State.presentDone_sp (s : State) : s.presentDone.sp = s.sp := rfl
@[simp] theorem State.presentDone_dt (s : State) : s.presentDone.dt = s.dt := rfl
@[simp] theorem State.presentDone_st (s : State) : s.presentDone.st = s.st := rfl
@[simp] theorem State.presentDone_mem (s : State) : s.presentDone.mem = s.mem := rfl
@[simp] theorem State.presentDone_fb (s : State) : s.presentDone.fb = s.fb := rfl
@[simp] theorem State.presentDone_keys (s : State) : s.presentDone.keys = s.keys := rfl
@[simp] theorem State.presentDone_redrawPending (s : State) : s.presentDone.redrawPending = false := rfl
@[simp] theorem State.presentDone_status (s : State) : s.presentDone.status = s.status := rfl
@[simp] theorem State.presentDone_cfg (s : State) : s.presentDone.cfg = s.cfg := rfl
@[simp] theorem State.presentDone_result (s : State) : s.presentDone.result = s.result := rfl
@[simp] theorem State.presentDone_draws (s : State) : s.presentDone.draws = s.draws := rfl
@[simp] theorem State.getV_presentDone (s : State) (r : Nibble) : s.presentDone.getV r = s.getV r := rfl
@[simp] theorem State.readByte_presentDone (s : State) (m : Nat) : s.presentDone.readByte m = s.readByte m := rfl
@[simp] theorem State.stackAt_presentDone (s : State) (k : Nat) : s.presentDone.stackAt k = s.stackAt k := rfl
@[simp] theorem State.cell_presentDone (s : State) (k : Nat) : s.presentDone.cell k = s.cell k := rfl
@[simp] theorem State.pressed_presentDone (s : State) (k : Nibble) : s.presentDone.pressed k = s.pressed k := rfl

/-! ### A register after a register write -/

@[simp] theorem State.getV_setV (s : State) (x r : Nibble) (b : Byte) :
    (s.setV x b).getV r = if r = x then b else s.getV r := by
  by_cases h : r = x
  · subst h
    simp [State.getV, State.setV]
  · have hne : x.toNat ≠ r.toNat := fun e => h (BitVec.eq_of_toNat_eq e.symm)
    simp [State.getV, State.setV, h, hne]

@[simp] theorem State.getV_setFlag (s : State) (f : Bool) (r : Nibble) :
    (s.setFlag f).getV r = if r = regF then (if f then 1 else 0) else s.getV r := by
  simp [State.setFlag]

/-! ### A stack entry after a push -/

theorem State.stackAt_push (s : State) (a : Word) (h : s.sp.val < 16) (k : Nat) :
    (s.push a h).stackAt k = if k = s.sp.val then a else s.stackAt k := by
  unfold State.stackAt State.push
  by_cases hk : k = s.sp.val
  · subst hk
    simp [Vector.getD, h]
  · have hne : s.sp.val ≠ k := fun e => hk e.symm
    by_cases h16 : k < 16 <;> simp [Vector.getD, hk, hne, h16]

/-! ### A key slot after a key write -/

theorem State.pressed_setKey (s : State) (k j : Nibble) (d : Bool) :
    (s.setKey k d).pressed j = if j = k then d else s.pressed j := by
  by_cases h : j = k
  · subst h
    cases d <;> simp [State.pressed]
  · have hne : k.toNat ≠ j.toNat := fun e => h (BitVec.eq_of_toNat_eq e.symm)
    simp [State.pressed, h, hne]

/-! ### Reads depend on their own field alone -/

theorem State.getV_congr {s t : State} (h : t.v = s.v) (r : Nibble) : t.getV r = s.getV r := by
  simp [State.getV, h]

theorem State.readByte_congr {s t : State} (hm : t.mem = s.mem) (hc : t.cfg = s.cfg) (a : Nat) :
    t.readByte a = s.readByte a := by
  simp [State.readByte, hm, hc]

theorem State.stackAt_congr {s t : State} (h : t.stack = s.stack) (k : Nat) : t.stackAt k = s.stackAt k := by
  simp [State.stackAt, h]

end Sys2Proof.Machine
end

