-- ==== Sys2Proof/Laws/Memory.lean ====
section
/-! SUPPORT. Memory: read after write, and that every memory operation keeps the canonical form. -/

namespace Sys2Proof.Machine

/-! ### The list -/

theorem memFind_memErase (m : Memory) (a b : Nat) :
    memFind (memErase m a) b = if b = a then none else memFind m b := by
  induction m with
  | nil => simp [memErase, memFind]
  | cons p rest ih =>
    obtain ⟨k, c⟩ := p
    by_cases hk : k = a <;> by_cases hb : b = a <;> by_cases hkb : k = b <;> simp_all [memErase, memFind]

theorem memFind_memInsert (m : Memory) (a : Nat) (v : Byte) (b : Nat) :
    memFind (memInsert m a v) b = if b = a then some v else memFind m b := by
  induction m with
  | nil => simp [memInsert, memFind, eq_comm]
  | cons p rest ih =>
    obtain ⟨k, c⟩ := p
    simp only [memInsert]
    split
    · simp [memFind, eq_comm (a := a)]
    · split
      · rename_i hka
        subst hka
        simp only [memFind, eq_comm (a := k)]
        split <;> rfl
      · rename_i hka
        simp only [memFind, ih]
        by_cases hb : b = a
        · subst hb
          simp [hka]
        · simp [hb]

theorem mem_of_mem_memErase {m : Memory} {a : Nat} {p : Host.Cell} (h : p ∈ memErase m a) : p ∈ m := by
  induction m with
  | nil => simp [memErase] at h
  | cons q rest ih =>
    obtain ⟨k, c⟩ := q
    simp only [memErase] at h
    split at h
    · exact List.mem_cons_of_mem _ (ih h)
    · rcases List.mem_cons.mp h with rfl | h
      · exact List.mem_cons_self
      · exact List.mem_cons_of_mem _ (ih h)

theorem mem_memInsert {m : Memory} {a : Nat} {v : Byte} {p : Host.Cell} (h : p ∈ memInsert m a v) :
    p = (a, v) ∨ p ∈ m := by
  induction m with
  | nil => simpa [memInsert] using h
  | cons q rest ih =>
    obtain ⟨k, c⟩ := q
    simp only [memInsert] at h
    split at h
    · simpa using h
    · split at h
      · rcases List.mem_cons.mp h with rfl | h
        · exact .inl rfl
        · exact .inr (List.mem_cons_of_mem _ h)
      · rcases List.mem_cons.mp h with rfl | h
        · exact .inr List.mem_cons_self
        · exact (ih h).imp id (List.mem_cons_of_mem _)

theorem memErase_sorted {m : Memory} (a : Nat) (h : m.Pairwise (fun p q => p.1 < q.1)) :
    (memErase m a).Pairwise (fun p q => p.1 < q.1) := by
  induction m with
  | nil => simp [memErase]
  | cons q rest ih =>
    obtain ⟨k, c⟩ := q
    rw [List.pairwise_cons] at h
    simp only [memErase]
    split
    · exact ih h.2
    · exact List.pairwise_cons.mpr ⟨fun p hp => h.1 p (mem_of_mem_memErase hp), ih h.2⟩

theorem memInsert_sorted {m : Memory} (a : Nat) (v : Byte) (h : m.Pairwise (fun p q => p.1 < q.1)) :
    (memInsert m a v).Pairwise (fun p q => p.1 < q.1) := by
  induction m with
  | nil => simp [memInsert]
  | cons q rest ih =>
    obtain ⟨k, c⟩ := q
    have hc := List.pairwise_cons.mp h
    simp only [memInsert]
    split
    · rename_i hak
      refine List.pairwise_cons.mpr ⟨fun p hp => ?_, h⟩
      rcases List.mem_cons.mp hp with rfl | hp
      · exact hak
      · exact Nat.lt_trans hak (hc.1 p hp)
    · rename_i hak
      split
      · rename_i hka
        subst hka
        exact List.pairwise_cons.mpr ⟨hc.1, hc.2⟩
      · rename_i hka
        refine List.pairwise_cons.mpr ⟨fun p hp => ?_, ih hc.2⟩
        rcases mem_memInsert hp with rfl | hp
        · simp only
          omega
        · exact hc.1 p hp

/-! ### Reading and writing -/

/-- A write inside memory is read back, and every other address reads as before (`20_memory.md` R65). -/
theorem memRead_memWrite (font : Font) (m : Memory) {a : Nat} (ha : a < memSize) (v : Byte) (b : Nat) :
    memRead font (memWrite font m a v) b = if b = a then v else memRead font m b := by
  unfold memRead memWrite
  rw [if_pos ha]
  split
  · rename_i hv
    rw [memFind_memErase]
    split
    · rename_i hb
      subst hb
      simp [hv]
    · rfl
  · rw [memFind_memInsert]
    split <;> rfl

/-- A write keeps the canonical form. -/
theorem memWrite_wf {font : Font} {m : Memory} (h : Memory.wf font m) (a : Nat) (v : Byte) :
    Memory.wf font (memWrite font m a v) := by
  unfold memWrite
  split
  · rename_i ha
    split
    · exact ⟨memErase_sorted a h.1, fun p hp => h.2 p (mem_of_mem_memErase hp)⟩
    · rename_i hv
      refine ⟨memInsert_sorted a v h.1, fun p hp => ?_⟩
      rcases mem_memInsert hp with rfl | hp
      · exact ⟨ha, hv⟩
      · exact h.2 p hp
  · exact h

theorem State.readByte_writeByte (s : State) {a : Nat} (ha : a < memSize) (v : Byte) (b : Nat) :
    (s.writeByte a v).readByte b = if b = a then v else s.readByte b :=
  memRead_memWrite s.cfg.font s.mem ha v b

theorem State.writeByte_wf {s : State} (h : s.mem.wf s.cfg.font) (a : Nat) (v : Byte) :
    (s.writeByte a v).mem.wf (s.writeByte a v).cfg.font :=
  memWrite_wf h a v

/-! ### Consecutive bytes -/

/-- Storing bytes changes memory alone: with the memory put back, the state is what it was. -/
theorem storeBytes_frame (bs : List Byte) (a : Nat) (s : State) :
    storeBytes bs a s = { s with mem := (storeBytes bs a s).mem } := by
  induction bs generalizing a s with
  | nil => rfl
  | cons b bs ih =>
    simp only [storeBytes]
    rw [ih]
    rfl

theorem storeBytes_wf {s : State} (bs : List Byte) (a : Nat) (h : s.mem.wf s.cfg.font) :
    (storeBytes bs a s).mem.wf (storeBytes bs a s).cfg.font := by
  induction bs generalizing a s with
  | nil => exact h
  | cons b bs ih => exact ih (a + 1) (State.writeByte_wf h a b)

/-- Inside memory, byte `k` of the list is at `a + k` and every other address reads as before (R55). -/
theorem State.readByte_storeBytes (bs : List Byte) (a : Nat) (s : State) (h : a + bs.length ≤ memSize) (b : Nat) :
    (storeBytes bs a s).readByte b = if a ≤ b then bs.getD (b - a) (s.readByte b) else s.readByte b := by
  induction bs generalizing a s with
  | nil => simp [storeBytes]
  | cons c bs ih =>
    simp only [List.length_cons] at h
    simp only [storeBytes]
    rw [ih (a + 1) _ (by omega), State.readByte_writeByte s (by omega)]
    by_cases hb : b = a
    · subst hb
      simp
    · by_cases hab : a ≤ b
      · have : b - a = (b - (a + 1)) + 1 := by omega
        have h1 : a + 1 ≤ b := by omega
        rw [this]
        simp [hb, hab, h1]
      · have h1 : ¬ a + 1 ≤ b := by omega
        simp [hb, hab, h1]

end Sys2Proof.Machine
end

