-- ==== Sys2Proof/Laws/Ops.lean ====
section
/-! SUPPORT. One lemma per shared operation that says what it can do, so that callers need not unfold it. -/

namespace Sys2Proof.Machine

/-! ### How an instruction ends -/

theorem complete_eq (s : State) (next : Word) : complete s next = .next (s.endAt next) := rfl

theorem completeNext_eq (s : State) : completeNext s = .next (s.endAt (s.pc + 2)) := rfl

theorem skipIf_eq (c : Bool) (s : State) : skipIf c s = .next (s.endAt (if c then s.pc + 4 else s.pc + 2)) := rfl

theorem waitForKey_eq (s : State) : waitForKey s = .next s.keyWait := rfl

theorem raiseFault_eq (c : FatalCause) (info : Word) (s : State) : raiseFault c info s = .next (takeFault c info s) := rfl

/-! ### The range check of a data access -/

theorem rangeFault_none {i : Word} {len : Nat} (h : i.toNat + len ≤ 0x1000) : rangeFault i len = none := by
  unfold rangeFault lastAddr
  exact if_neg (by omega)

theorem rangeFault_some {i : Word} {len : Nat} (hl : 0 < len) (h : 0x1000 < i.toNat + len) :
    rangeFault i len = some (BitVec.ofNat 16 (max i.toNat 0x1000)) := by
  unfold rangeFault lastAddr
  exact if_pos (by omega)

/-- A data instruction faults, and then changes nothing else, exactly when its range passes 0xFFF. -/
theorem withDataRange_cases (len : Nat) (s : State) (body : Host.Outcome State Fault Refusal) :
    (0 < len ∧ 0x1000 < s.i.toNat + len ∧
      withDataRange len s body = raiseFault .memoryOutOfRange (BitVec.ofNat 16 (max s.i.toNat 0x1000)) s) ∨
    ((len = 0 ∨ s.i.toNat + len ≤ 0x1000) ∧ withDataRange len s body = body) := by
  unfold withDataRange
  by_cases h : 0 < len ∧ 0x1000 < s.i.toNat + len
  · exact .inl ⟨h.1, h.2, by rw [rangeFault_some h.1 h.2]⟩
  · refine .inr ⟨by omega, ?_⟩
    have : rangeFault s.i len = none := by
      unfold rangeFault lastAddr
      exact if_neg (by omega)
    rw [this]

theorem withDataRange_ok {len : Nat} {s : State} (h : len = 0 ∨ s.i.toNat + len ≤ 0x1000)
    (body : Host.Outcome State Fault Refusal) : withDataRange len s body = body := by
  rcases withDataRange_cases len s body with ⟨h1, h2, -⟩ | ⟨-, h'⟩
  · omega
  · exact h'

theorem withDataRange_fault {len : Nat} {s : State} (hl : 0 < len) (h : 0x1000 < s.i.toNat + len)
    (body : Host.Outcome State Fault Refusal) :
    withDataRange len s body = raiseFault .memoryOutOfRange (BitVec.ofNat 16 (max s.i.toNat 0x1000)) s := by
  rcases withDataRange_cases len s body with ⟨-, -, h'⟩ | ⟨h1, -⟩
  · exact h'
  · omega

/-! ### Key numbers -/

theorem keyNumber_some {b : Byte} (h : b.toNat ≤ 15) : keyNumber b = some (b.setWidth 4) := if_pos h

theorem keyNumber_none {b : Byte} (h : 15 < b.toNat) : keyNumber b = none := if_neg (by omega)

theorem withKey_ok {b : Byte} (h : b.toNat ≤ 15) (s : State) (body : Nibble → Host.Outcome State Fault Refusal) :
    withKey b s body = body (b.setWidth 4) := by
  simp [withKey, keyNumber_some h]

theorem withKey_fault {b : Byte} (h : 15 < b.toNat) (s : State) (body : Nibble → Host.Outcome State Fault Refusal) :
    withKey b s body = raiseFault .keyIndexOutOfRange (zextByte b) s := by
  simp [withKey, keyNumber_none h]

theorem withKey_cases (b : Byte) (s : State) (body : Nibble → Host.Outcome State Fault Refusal) :
    withKey b s body = raiseFault .keyIndexOutOfRange (zextByte b) s ∨ withKey b s body = body (b.setWidth 4) := by
  by_cases h : b.toNat ≤ 15
  · exact .inr (withKey_ok h s body)
  · exact .inl (withKey_fault (by omega) s body)

/-- Every key number is in the scan of R167. -/
theorem mem_allKeys (k : Nibble) : k ∈ allKeys := by
  revert k
  decide

/-- The scan goes upward. -/
theorem allKeys_sorted : allKeys.Pairwise (fun j k => j.toNat < k.toNat) := by decide

theorem firstPressed_none {s : State} : firstPressed s = none ↔ ∀ k, s.pressed k = false := by
  unfold firstPressed
  rw [List.find?_eq_none]
  exact ⟨fun h k => by simpa using h k (mem_allKeys k), fun h k _ => by simp [h k]⟩

/-- The scan finds the LEAST pressed key (R167). -/
theorem firstPressed_least {s : State} {k : Nibble} (hk : s.pressed k = true)
    (hlow : ∀ j : Nibble, j.toNat < k.toNat → s.pressed j = false) : firstPressed s = some k := by
  unfold firstPressed
  rw [List.find?_eq_some_iff_append]
  refine ⟨hk, ?_⟩
  obtain ⟨as, bs, h⟩ := List.append_of_mem (mem_allKeys k)
  refine ⟨as, bs, h, fun j hj => ?_⟩
  have hs := allKeys_sorted
  rw [h, List.pairwise_append] at hs
  simp [hlow j (hs.2.2 j hj k List.mem_cons_self)]

theorem firstPressed_some {s : State} {k : Nibble} (h : firstPressed s = some k) : s.pressed k = true :=
  List.find?_some h

/-! ### Flags -/

theorem writeWithFlag_cases (flag : Bool) (write : State → State) (s : State) :
    (s.cfg.vfWriteOrder = .flagLast ∧ writeWithFlag flag write s = (write s).setFlag flag) ∨
    (s.cfg.vfWriteOrder = .flagFirst ∧ writeWithFlag flag write s = write (s.setFlag flag)) := by
  unfold writeWithFlag
  split
  · exact .inl ⟨‹_›, rfl⟩
  · exact .inr ⟨‹_›, rfl⟩

theorem writeWithFlag_last {s : State} (h : s.cfg.vfWriteOrder = .flagLast) (flag : Bool) (write : State → State) :
    writeWithFlag flag write s = (write s).setFlag flag := by
  unfold writeWithFlag
  rw [h]

theorem writeWithFlag_first {s : State} (h : s.cfg.vfWriteOrder = .flagFirst) (flag : Bool) (write : State → State) :
    writeWithFlag flag write s = write (s.setFlag flag) := by
  unfold writeWithFlag
  rw [h]

/-- A register result written with a flag changes the register file alone. -/
theorem writeWithFlag_setV_frame (flag : Bool) (x : Nibble) (f : State → Byte) (s : State) :
    writeWithFlag flag (fun t => t.setV x (f t)) s =
      { s with v := (writeWithFlag flag (fun t => t.setV x (f t)) s).v } := by
  rcases writeWithFlag_cases flag (fun t => t.setV x (f t)) s with ⟨-, h⟩ | ⟨-, h⟩ <;> rw [h] <;> rfl

/-! ### Register lists -/

/-- Loading registers changes the register file alone. -/
theorem loadRegsFrom_frame (a n : Nat) (s : State) :
    loadRegsFrom a n s = { s with v := (loadRegsFrom a n s).v } := by
  induction n with
  | zero => rfl
  | succ n ih =>
    rw [loadRegsFrom, ih]
    rfl

/-- Registers 0 to `n - 1` are loaded from ascending addresses, the others keep their value (R145). -/
theorem loadRegsFrom_getV (a n : Nat) (s : State) (hn : n ≤ 16) (r : Nibble) :
    (loadRegsFrom a n s).getV r = if r.toNat < n then s.readByte (a + r.toNat) else s.getV r := by
  induction n with
  | zero => simp [loadRegsFrom]
  | succ n ih =>
    rw [loadRegsFrom, State.getV_setV, ih (by omega)]
    by_cases h : r = BitVec.ofNat 4 n
    · subst h
      have : n % 16 = n := Nat.mod_eq_of_lt (by omega)
      simp [this]
    · have hne : r.toNat ≠ n := fun e => h (by
        apply BitVec.eq_of_toNat_eq
        simp only [BitVec.toNat_ofNat]
        omega)
      rw [if_neg h]
      by_cases h1 : r.toNat < n
      · rw [if_pos h1, if_pos (by omega)]
      · rw [if_neg h1, if_neg (by omega)]

/-- Byte `k` of V0 to Vx is V`k` (R144). -/
theorem regsUpTo_getD (x : Nibble) (s : State) (k : Nat) (d : Byte) :
    (regsUpTo x s).getD k d = if k ≤ x.toNat then s.getV (BitVec.ofNat 4 k) else d := by
  have hx := x.isLt
  unfold regsUpTo State.getV
  by_cases h : k ≤ x.toNat
  · have h1 : k % 16 = k := Nat.mod_eq_of_lt (by omega)
    have h2 : k < 16 := by omega
    simp [h, h1, h2, Nat.lt_succ_of_le h]
  · have h3 : ¬ k < x.toNat + 1 := by omega
    simp [h, h3]

theorem regsUpTo_length (x : Nibble) (s : State) : (regsUpTo x s).length = x.toNat + 1 := by
  have hx := x.isLt
  simp [regsUpTo]
  omega

end Sys2Proof.Machine
end

