-- ==== Sys2Proof/Laws/Display.lean ====
section
/-! SUPPORT. What the sprite operations of DRW do, cell by cell. -/

namespace Sys2Proof.Machine

/-! ### Flipping a list of cells -/

theorem flipCell_cell (acc : BitVec 2048 × Bool) {t : Nat} (ht : t < 2048) (k : Nat) :
    (flipCell acc t).1.getLsbD k = if k = t then !acc.1.getLsbD t else acc.1.getLsbD k := by
  simp only [flipCell, BitVec.getLsbD_xor, BitVec.getLsbD_twoPow]
  by_cases h : k = t
  · subst h
    simp [ht]
  · have h' : ¬ t = k := fun e => h e.symm
    simp [h, h']

theorem foldl_flipCell_cell (cells : List Nat) (acc : BitVec 2048 × Bool) (hn : cells.Nodup) (hb : ∀ t ∈ cells, t < 2048)
    (k : Nat) :
    (cells.foldl flipCell acc).1.getLsbD k = if k ∈ cells then !acc.1.getLsbD k else acc.1.getLsbD k := by
  induction cells generalizing acc with
  | nil => simp
  | cons t ts ih =>
    obtain ⟨ht, hts⟩ := List.nodup_cons.mp hn
    rw [List.foldl_cons, ih _ hts (fun u hu => hb u (List.mem_cons_of_mem _ hu)),
      flipCell_cell acc (hb t List.mem_cons_self)]
    by_cases hk : k = t
    · subst hk
      simp [ht]
    · simp [hk]

theorem foldl_flipCell_collision (cells : List Nat) (acc : BitVec 2048 × Bool) (hn : cells.Nodup)
    (hb : ∀ t ∈ cells, t < 2048) :
    (cells.foldl flipCell acc).2 = (acc.2 || cells.any (fun t => acc.1.getLsbD t)) := by
  induction cells generalizing acc with
  | nil => simp
  | cons t ts ih =>
    obtain ⟨ht, hts⟩ := List.nodup_cons.mp hn
    rw [List.foldl_cons, ih _ hts (fun u hu => hb u (List.mem_cons_of_mem _ hu))]
    have hany : ts.any (fun u => (flipCell acc t).1.getLsbD u) = ts.any (fun u => acc.1.getLsbD u) := by
      rw [Bool.eq_iff_iff]
      simp only [List.any_eq_true]
      refine exists_congr fun u => and_congr_right fun hu => ?_
      have hne : u ≠ t := fun e => ht (e ▸ hu)
      rw [flipCell_cell acc (hb t List.mem_cons_self), if_neg hne]
    rw [hany]
    simp [flipCell, Bool.or_assoc]

/-- Cells all different and inside the framebuffer: each is inverted once, the others stay (R181). -/
theorem drawCells_cell {cells : List Nat} (fb : BitVec 2048) (hn : cells.Nodup) (hb : ∀ t ∈ cells, t < 2048) (k : Nat) :
    (drawCells cells fb).1.getLsbD k = if k ∈ cells then !fb.getLsbD k else fb.getLsbD k :=
  foldl_flipCell_cell cells (fb, false) hn hb k

/-- The collision flag: some cell hit was 1 (R181). -/
theorem drawCells_collision {cells : List Nat} (fb : BitVec 2048) (hn : cells.Nodup) (hb : ∀ t ∈ cells, t < 2048) :
    (drawCells cells fb).2 = true ↔ ∃ k ∈ cells, fb.getLsbD k = true := by
  unfold drawCells
  rw [foldl_flipCell_collision cells (fb, false) hn hb]
  simp

/-! ### The cells of a sprite -/

theorem mem_rowCells {policy : DrawEdgePolicy} {b : Byte} {px py k : Nat} :
    k ∈ rowCells policy b px py ↔ ∃ c, c < 8 ∧ spriteBit b c = true ∧ cellAt policy (px + c) py = some k := by
  simp only [rowCells, List.mem_filterMap, List.mem_range]
  refine exists_congr fun c => and_congr_right fun _ => ?_
  by_cases h : spriteBit b c = true <;> simp [h]

/-- A cell is hit when a 1 bit of the sprite lies on it (R181). -/
theorem mem_spriteCells {s : State} {vx vy n k : Nat} :
    k ∈ spriteCells s vx vy n ↔ ∃ r c, r < n ∧ c < 8 ∧ spriteBit (s.readByte (s.i.toNat + r)) c = true ∧
      cellAt s.cfg.drawEdge (vx + c) (vy + r) = some k := by
  simp only [spriteCells, List.mem_flatMap, List.mem_range, mem_rowCells]
  constructor
  · rintro ⟨r, hr, c, h⟩
    exact ⟨r, c, hr, h⟩
  · rintro ⟨r, c, hr, h⟩
    exact ⟨r, hr, c, h⟩

/-! ### The edge check -/

theorem withCells_cases (vx vy n : Nat) (s : State) (body : Host.Outcome State Fault Refusal) :
    (s.cfg.drawEdge = .raw ∧ 0 < n ∧ 2047 < (vy + n - 1) * 64 + vx + 7 ∧
      withCells vx vy n s body = raiseFault .framebufferOutOfRange (BitVec.ofNat 16 ((vy + n - 1) * 64 + vx + 7)) s) ∨
    ((s.cfg.drawEdge = .raw → n = 0 ∨ (vy + n - 1) * 64 + vx + 7 ≤ 2047) ∧ withCells vx vy n s body = body) := by
  unfold withCells edgeFault rectangleEnd fbCells
  cases hp : s.cfg.drawEdge
  · by_cases h : 0 < n ∧ 2048 - 1 < (vy + n - 1) * 64 + vx + 7
    · exact .inl ⟨rfl, h.1, h.2, by simp only [if_pos h]⟩
    · exact .inr ⟨fun _ => by omega, by simp only [if_neg h]⟩
  · exact .inr ⟨nofun, rfl⟩
  · exact .inr ⟨nofun, rfl⟩

/-- Drawing changes the framebuffer, VF and `redrawPending` alone. -/
theorem drawSprite_frame (vx vy n : Nat) (s : State) :
    drawSprite vx vy n s =
      { s with v := (drawSprite vx vy n s).v, fb := (drawSprite vx vy n s).fb, redrawPending := true } := rfl

theorem drawSprite_cell (vx vy n : Nat) (s : State) (k : Nat) :
    (drawSprite vx vy n s).cell k = (drawCells (spriteCells s vx vy n) s.fb).1.getLsbD k := rfl

theorem drawSprite_getV (vx vy n : Nat) (s : State) (r : Nibble) :
    (drawSprite vx vy n s).getV r =
      if r = regF then (if (drawCells (spriteCells s vx vy n) s.fb).2 then 1 else 0) else s.getV r := by
  unfold drawSprite
  rw [State.getV_setFlag]
  rfl

end Sys2Proof.Machine
end

