-- ==== Sys2Proof/Laws/Exec.lean ====
section
/-! SUPPORT. What an instruction can do, said once: it completes, it raises its fault, or it waits for a key; and what a cycle can do. -/

namespace Sys2Proof.Machine

/-- The elements no completing instruction writes: the key slots, `status`, the open parameters (`10_state.md` R41). -/
structure KeepsControl (s t : State) : Prop where
  keys : t.keys = s.keys
  status : t.status = s.status
  cfg : t.cfg = s.cfg

theorem KeepsControl.refl (s : State) : KeepsControl s s := ⟨rfl, rfl, rfl⟩

theorem KeepsControl.of_eq {s t u : State} (h : t = u) (hu : KeepsControl s u) : KeepsControl s t := h ▸ hu

/-- Every instruction ends in one of the three ways of `47_step_driver.md` R190 step 7. -/
inductive Ends (s : State) : Host.Outcome State Fault Refusal → Prop where
  | completes (u : State) (next : Word) (keeps : KeepsControl s u) : Ends s (complete u next)
  | faults (c : FatalCause) (info : Word) : Ends s (raiseFault c info s)
  | waits : Ends s (waitForKey s)

theorem Ends.next {s u : State} (h : KeepsControl s u) : Ends s (completeNext u) := .completes u _ h

theorem Ends.skip (c : Bool) (s : State) : Ends s (skipIf c s) := .completes s _ (.refl s)

theorem Ends.range {s : State} {body : Host.Outcome State Fault Refusal} (len : Nat) (h : Ends s body) :
    Ends s (withDataRange len s body) := by
  rcases withDataRange_cases len s body with ⟨-, -, e⟩ | ⟨-, e⟩ <;> rw [e]
  · exact .faults _ _
  · exact h

theorem Ends.flagged {s : State} (flag : Bool) (write : State → State) (h : ∀ t, KeepsControl t (write t)) :
    Ends s (completeNext (writeWithFlag flag write s)) := by
  refine .next ?_
  rcases writeWithFlag_cases flag write s with ⟨-, e⟩ | ⟨-, e⟩ <;> rw [e]
  · exact ⟨(h s).keys, (h s).status, (h s).cfg⟩
  · exact ⟨(h (s.setFlag flag)).keys, (h (s.setFlag flag)).status, (h (s.setFlag flag)).cfg⟩

theorem exec_ends (i : Instr) (s : State) : Ends s (exec i s) := by
  cases i with
  | jp nnn => exact .completes s _ (.refl s)
  | call nnn =>
    simp only [exec, execCall]
    split
    · exact .completes _ _ ⟨rfl, rfl, rfl⟩
    · exact .faults _ _
  | ret =>
    simp only [exec, execRet]
    split
    · exact .faults _ _
    · exact .completes _ _ ⟨rfl, rfl, rfl⟩
  | seImm x nn => exact .skip _ s
  | sneImm x nn => exact .skip _ s
  | seReg x y => exact .skip _ s
  | sneReg x y => exact .skip _ s
  | jpV0 nnn => exact .completes s _ (.refl s)
  | ldImm x nn => exact .next ⟨rfl, rfl, rfl⟩
  | addImm x nn => exact .next ⟨rfl, rfl, rfl⟩
  | ldReg x y => exact .next ⟨rfl, rfl, rfl⟩
  | or x y => exact .next ⟨rfl, rfl, rfl⟩
  | and x y => exact .next ⟨rfl, rfl, rfl⟩
  | xor x y => exact .next ⟨rfl, rfl, rfl⟩
  | addReg x y => exact .flagged _ _ fun _ => ⟨rfl, rfl, rfl⟩
  | sub x y => exact .flagged _ _ fun _ => ⟨rfl, rfl, rfl⟩
  | subn x y => exact .flagged _ _ fun _ => ⟨rfl, rfl, rfl⟩
  | shr x y => exact .flagged _ _ fun _ => ⟨rfl, rfl, rfl⟩
  | shl x y => exact .flagged _ _ fun _ => ⟨rfl, rfl, rfl⟩
  | ldI nnn => exact .next ⟨rfl, rfl, rfl⟩
  | ldF x => exact .next ⟨rfl, rfl, rfl⟩
  | addI x => exact .flagged _ _ fun _ => ⟨rfl, rfl, rfl⟩
  | ldB x => exact .range 3 (.next (.of_eq (storeBytes_frame _ _ s) ⟨rfl, rfl, rfl⟩))
  | storeRegs x =>
    refine .range _ (.next ?_)
    rw [storeBytes_frame]
    exact ⟨rfl, rfl, rfl⟩
  | loadRegs x =>
    refine .range _ (.next ?_)
    rw [loadRegsFrom_frame]
    exact ⟨rfl, rfl, rfl⟩
  | rnd x nn => exact .next ⟨rfl, rfl, rfl⟩
  | skp x =>
    rcases withKey_cases (s.getV x) s (fun k => skipIf (s.pressed k) s) with e | e <;> simp only [exec, execSkp, e]
    · exact .faults _ _
    · exact .skip _ s
  | sknp x =>
    rcases withKey_cases (s.getV x) s (fun k => skipIf (!s.pressed k) s) with e | e <;> simp only [exec, execSknp, e]
    · exact .faults _ _
    · exact .skip _ s
  | ldKey x =>
    simp only [exec, execLdKey]
    split
    · exact .next ⟨rfl, rfl, rfl⟩
    · exact .waits
  | ldFromDT x => exact .next ⟨rfl, rfl, rfl⟩
  | ldDT x => exact .next ⟨rfl, rfl, rfl⟩
  | ldST x => exact .next ⟨rfl, rfl, rfl⟩
  | cls => exact .next ⟨rfl, rfl, rfl⟩
  | drw x y n =>
    refine .range _ ?_
    rcases withCells_cases (s.getV x).toNat (s.getV y).toNat n.toNat s
      (completeNext (drawSprite (s.getV x).toNat (s.getV y).toNat n.toNat s)) with ⟨-, -, -, e⟩ | ⟨-, e⟩ <;> rw [e]
    · exact .faults _ _
    · exact .next ⟨rfl, rfl, rfl⟩

/-! ### The cycle (R190) -/

theorem fetchStage_halted {s : State} {c : FatalCause} {info : Word} (h : s.status = .faulted c info) :
    fetchStage s = .ends s.haltedCycle := by
  unfold fetchStage
  rw [h]

theorem fetchStage_running {s : State} (h : s.status = .running) : fetchStage s = fetchRunning s := by
  unfold fetchStage
  rw [h]

theorem fetchable_iff {s : State} : s.fetchable = true ↔ s.status = .running ∧ pcFault s.pc = none := by
  simp [State.fetchable]

/-- The fetch checks pass exactly on the even addresses 0x200 to 0xFFE (R191). -/
theorem pcFault_none_iff {pc : Word} :
    pcFault pc = none ↔ 0x200 ≤ pc.toNat ∧ pc.toNat ≤ 0xFFE ∧ pc.toNat % 2 = 0 := by
  have hbit : pc.getLsbD 0 = decide (pc.toNat % 2 = 1) := by
    rw [← BitVec.testBit_toNat, Nat.testBit_zero]
  unfold pcFault
  rw [hbit]
  by_cases hr : pc.toNat < 0x200 ∨ 0xFFE < pc.toNat
  · rw [if_pos hr]
    simp only [reduceCtorEq, false_iff]
    omega
  · rw [if_neg hr]
    rcases Nat.mod_two_eq_zero_or_one pc.toNat with h | h
    · simp only [h, Nat.zero_ne_one, decide_false, Bool.false_eq_true, if_false, true_iff]
      exact ⟨by omega, by omega, trivial⟩
    · simp [h]

/-- What a cycle can do: nothing on a halted core, a fetch fault, a report, or the decoded instruction and what follows it. -/
theorem step_cases (s : State) :
    ((∃ c info, s.status = .faulted c info) ∧ step s = .next s.haltedCycle) ∨
    (∃ c, s.status = .running ∧ pcFault s.pc = some c ∧ step s = .next (takeFault c s.pc s)) ∨
    (s.fetchable = true ∧ (∃ e, decode (fetchWord s) = .error e) ∧ step s = .next (s.reportUnknown (fetchWord s))) ∨
    (s.fetchable = true ∧ ∃ i, decode (fetchWord s) = .ok i ∧ step s = finishCycle (exec i s)) := by
  unfold step
  cases hs : s.status with
  | faulted c info => exact .inl ⟨⟨c, info, rfl⟩, by rw [fetchStage_halted hs]⟩
  | running =>
    rw [fetchStage_running hs]
    unfold fetchRunning
    cases hp : pcFault s.pc with
    | some c => exact .inr (.inl ⟨c, rfl, rfl, rfl⟩)
    | none =>
      have hf : s.fetchable = true := fetchable_iff.mpr ⟨hs, hp⟩
      cases hd : decode (fetchWord s) with
      | error e => exact .inr (.inr (.inl ⟨hf, ⟨e, rfl⟩, rfl⟩))
      | ok i => exact .inr (.inr (.inr ⟨hf, i, rfl, rfl⟩))

/-- The end of a cycle on each way an instruction ends. -/
theorem finishCycle_complete (u : State) (next : Word) :
    finishCycle (complete u next) = .next (u.endAt next).tick := rfl

theorem finishCycle_raiseFault (c : FatalCause) (info : Word) (s : State) :
    finishCycle (raiseFault c info s) = .next (takeFault c info s) := rfl

theorem finishCycle_waitForKey (s : State) : finishCycle (waitForKey s) = .next s.keyWait := rfl

end Sys2Proof.Machine
end

