-- ==== Sys2Proof/Laws/PerInstr.lean ====
section
/-! SUPPORT. Statements about every instruction as syntax, one lemma per constructor. -/

namespace Sys2Proof.Laws

/-! ### Masking an assembled word -/

theorem formNNN_mask (op : Nibble) (nnn : Addr12) : formNNN op nnn &&& 0xF000#16 = formNNN op 0 := by
  have h : (op ++ nnn) &&& (0xF#4 ++ 0#12) = op ++ (0 : Addr12) := by
    rw [BitVec.and_append]
    congr 1
    · exact BitVec.and_allOnes
    · exact BitVec.and_zero
  exact h

theorem formXNN_mask (op x : Nibble) (nn : Byte) : formXNN op x nn &&& 0xF000#16 = formXNN op 0 0 :=
  formNNN_mask op (x ++ nn)

theorem formXYN_mask (op x y n : Nibble) : formXYN op x y n &&& 0xF000#16 = formXYN op 0 0 0 :=
  formNNN_mask op (x ++ (y ++ n))

theorem formXNN_mask_sub (op x : Nibble) (nn : Byte) : formXNN op x nn &&& 0xF0FF#16 = formXNN op 0 nn := by
  have h : (op ++ (x ++ nn)) &&& (0xF#4 ++ (0#4 ++ 0xFF#8)) = op ++ ((0 : Nibble) ++ nn) := by
    rw [BitVec.and_append, BitVec.and_append]
    congr 1
    · exact BitVec.and_allOnes
    · congr 1
      · exact BitVec.and_zero
      · exact BitVec.and_allOnes
  exact h

theorem formXYN_mask_sub (op x y n : Nibble) : formXYN op x y n &&& 0xF00F#16 = formXYN op 0 0 n := by
  have h : (op ++ (x ++ (y ++ n))) &&& (0xF#4 ++ (0#4 ++ (0#4 ++ 0xF#4))) = op ++ ((0 : Nibble) ++ ((0 : Nibble) ++ n)) := by
    rw [BitVec.and_append, BitVec.and_append, BitVec.and_append]
    congr 1
    · exact BitVec.and_allOnes
    · congr 1
      · exact BitVec.and_zero
      · congr 1
        · exact BitVec.and_zero
        · exact BitVec.and_allOnes
  exact h

namespace EncodesItsRow

/-- The word of an instruction selects the instruction's own row of the opcode map (`30_encoding.md` R76). -/
def Statement (i : Instr) : Prop := i.row.selects (encode i) = true

theorem jp (nnn : Addr12) : Statement (.jp nnn) := beq_of_eq (formNNN_mask ..)
theorem call (nnn : Addr12) : Statement (.call nnn) := beq_of_eq (formNNN_mask ..)
theorem ret : Statement .ret := rfl
theorem seImm (x : Nibble) (nn : Byte) : Statement (.seImm x nn) := beq_of_eq (formXNN_mask ..)
theorem sneImm (x : Nibble) (nn : Byte) : Statement (.sneImm x nn) := beq_of_eq (formXNN_mask ..)
theorem seReg (x y : Nibble) : Statement (.seReg x y) := beq_of_eq (formXYN_mask_sub ..)
theorem sneReg (x y : Nibble) : Statement (.sneReg x y) := beq_of_eq (formXYN_mask_sub ..)
theorem jpV0 (nnn : Addr12) : Statement (.jpV0 nnn) := beq_of_eq (formNNN_mask ..)
theorem ldImm (x : Nibble) (nn : Byte) : Statement (.ldImm x nn) := beq_of_eq (formXNN_mask ..)
theorem addImm (x : Nibble) (nn : Byte) : Statement (.addImm x nn) := beq_of_eq (formXNN_mask ..)
theorem ldReg (x y : Nibble) : Statement (.ldReg x y) := beq_of_eq (formXYN_mask_sub ..)
theorem or (x y : Nibble) : Statement (.or x y) := beq_of_eq (formXYN_mask_sub ..)
theorem and (x y : Nibble) : Statement (.and x y) := beq_of_eq (formXYN_mask_sub ..)
theorem xor (x y : Nibble) : Statement (.xor x y) := beq_of_eq (formXYN_mask_sub ..)
theorem addReg (x y : Nibble) : Statement (.addReg x y) := beq_of_eq (formXYN_mask_sub ..)
theorem sub (x y : Nibble) : Statement (.sub x y) := beq_of_eq (formXYN_mask_sub ..)
theorem subn (x y : Nibble) : Statement (.subn x y) := beq_of_eq (formXYN_mask_sub ..)
theorem shr (x y : Nibble) : Statement (.shr x y) := beq_of_eq (formXYN_mask_sub ..)
theorem shl (x y : Nibble) : Statement (.shl x y) := beq_of_eq (formXYN_mask_sub ..)
theorem ldI (nnn : Addr12) : Statement (.ldI nnn) := beq_of_eq (formNNN_mask ..)
theorem ldF (x : Nibble) : Statement (.ldF x) := beq_of_eq (formXNN_mask_sub ..)
theorem addI (x : Nibble) : Statement (.addI x) := beq_of_eq (formXNN_mask_sub ..)
theorem ldB (x : Nibble) : Statement (.ldB x) := beq_of_eq (formXNN_mask_sub ..)
theorem storeRegs (x : Nibble) : Statement (.storeRegs x) := beq_of_eq (formXNN_mask_sub ..)
theorem loadRegs (x : Nibble) : Statement (.loadRegs x) := beq_of_eq (formXNN_mask_sub ..)
theorem rnd (x : Nibble) (nn : Byte) : Statement (.rnd x nn) := beq_of_eq (formXNN_mask ..)
theorem skp (x : Nibble) : Statement (.skp x) := beq_of_eq (formXNN_mask_sub ..)
theorem sknp (x : Nibble) : Statement (.sknp x) := beq_of_eq (formXNN_mask_sub ..)
theorem ldKey (x : Nibble) : Statement (.ldKey x) := beq_of_eq (formXNN_mask_sub ..)
theorem ldFromDT (x : Nibble) : Statement (.ldFromDT x) := beq_of_eq (formXNN_mask_sub ..)
theorem ldDT (x : Nibble) : Statement (.ldDT x) := beq_of_eq (formXNN_mask_sub ..)
theorem ldST (x : Nibble) : Statement (.ldST x) := beq_of_eq (formXNN_mask_sub ..)
theorem cls : Statement .cls := rfl
theorem drw (x y n : Nibble) : Statement (.drw x y n) := beq_of_eq (formXYN_mask ..)

end EncodesItsRow

end Sys2Proof.Laws
end

