-- ==== Sys2Proof/Tests/Slice0.lean ====
section
/-! SUPPORT. Tests on fixed values and, for every obligation with hypotheses, a witness that meets them. Expected results come from
`95_test_vectors.md` (the vector's id stands at each test), from the bit patterns of `30_encoding.md` R76, and from the rules named. -/

set_option Elab.async false

namespace Sys2Proof.Tests

open Sys2Proof Sys2Proof.Machine

/-! ### Helpers -/

/-- A state with some registers set. -/
def withRegs (rs : List (Nibble × Byte)) (s : State) : State := rs.foldl (fun t p => t.setV p.1 p.2) s

/-- A state with some bytes of memory set. -/
def withBytes (bs : List (Nat × Byte)) (s : State) : State := bs.foldl (fun t p => t.writeByte p.1 p.2) s

/-- A state with some framebuffer cells lit. -/
def withCellsLit (cs : List (Nat × Nat)) (s : State) : State :=
  { s with fb := cs.foldl (fun f c => f ||| BitVec.twoPow 2048 (c.2 * 64 + c.1)) 0 }

/-- A state with the parameters of R8 chosen. -/
def withParams (d : DrawEdgePolicy) (o : VfWriteOrder) (s : State) : State :=
  { s with cfg := { s.cfg with drawEdge := d, vfWriteOrder := o } }

/-- One cycle on a word placed at `pc` ends in a next state with the property. -/
def runs (s : State) (w : Nat) (p : State → Bool) : Bool :=
  match step (s.withFetchWord 16 w) with
  | .next t => p t
  | .fault _ => false
  | .refused _ => false

/-- One cycle on a word placed at `pc` latches the fault and leaves everything else as it was. -/
def faults (s : State) (w : Nat) (c : FatalCause) (info : Word) : Bool :=
  runs s w (fun t => t == { s.withFetchWord 16 w with status := .faulted c info, result := .fatal c info })

/-- Exactly the listed cells, as (column, row), are lit. -/
def lit (cs : List (Nat × Nat)) (t : State) : Bool :=
  t.fb == cs.foldl (fun f c => f ||| BitVec.twoPow 2048 (c.2 * 64 + c.1)) 0

/-! ### WellFormed: each check refuses an ill-formed term, and passes a well-formed one -/

/-- A font whose first byte is not glyph 0's is refused (`10_state.md` R38). -/
theorem test_font_refused :
    Config.wellFormed { defaultConfig with font := defaultConfig.font.set 0 0xF1 } = false := by decide

theorem test_font_accepted : Config.wellFormed defaultConfig = true := by decide

/-- S2, LD4, LD5: 3585 bytes are refused, 3584 are accepted. -/
theorem test_image_bound :
    imageFits (List.replicate 3585 0xAB) = false ∧ imageFits (List.replicate 3584 0xAB) = true := by
  simp only [imageFits, imageMax, List.length_replicate]
  decide

/-- The fields of an instruction are exactly as wide as R71 says, so no term of Instr is ill-formed: 16 registers, 4096 addresses. -/
theorem test_fields_have_their_width :
    (∀ i, Instr.wellFormed i = true) ∧ (16 : Nibble) = 0 ∧ (4096 : Addr12) = 0 ∧ (256 : Byte) = 0 := by
  exact ⟨fun _ => rfl, rfl, rfl, rfl⟩

/-- Fewer than two bytes are no instruction (R70). -/
theorem test_truncated_refused :
    decodeBytes [] = .error .truncated ∧ decodeBytes [0x12] = .error .truncated := by decide

/-! ### Decode: one word per constructor, written out bit by bit from R76 -/

theorem test_decode_jp : decode 0b0001_0010_0011_0100 = .ok (.jp 0x234) := by decide
theorem test_decode_call : decode 0b0010_0011_0000_0000 = .ok (.call 0x300) := by decide
theorem test_decode_ret : decode 0b0000_0000_1110_1110 = .ok (.ret) := by decide
theorem test_decode_seImm : decode 0b0011_0011_0100_0010 = .ok (.seImm 3 0x42) := by decide
theorem test_decode_sneImm : decode 0b0100_0011_0000_0000 = .ok (.sneImm 3 0x00) := by decide
theorem test_decode_seReg : decode 0b0101_0001_0010_0000 = .ok (.seReg 1 2) := by decide
theorem test_decode_sneReg : decode 0b1001_0001_0010_0000 = .ok (.sneReg 1 2) := by decide
theorem test_decode_jpV0 : decode 0b1011_0011_0000_0001 = .ok (.jpV0 0x301) := by decide
theorem test_decode_ldImm : decode 0b0110_0001_0000_0101 = .ok (.ldImm 1 5) := by decide
theorem test_decode_addImm : decode 0b0111_0010_0000_0101 = .ok (.addImm 2 5) := by decide
theorem test_decode_ldReg : decode 0b1000_0011_0100_0000 = .ok (.ldReg 3 4) := by decide
theorem test_decode_or : decode 0b1000_0001_0010_0001 = .ok (.or 1 2) := by decide
theorem test_decode_and : decode 0b1000_0001_0010_0010 = .ok (.and 1 2) := by decide
theorem test_decode_xor : decode 0b1000_0001_0010_0011 = .ok (.xor 1 2) := by decide
theorem test_decode_addReg : decode 0b1000_0001_0010_0100 = .ok (.addReg 1 2) := by decide
theorem test_decode_sub : decode 0b1000_0001_0010_0101 = .ok (.sub 1 2) := by decide
theorem test_decode_subn : decode 0b1000_0001_0010_0111 = .ok (.subn 1 2) := by decide
theorem test_decode_shr : decode 0b1000_0001_0010_0110 = .ok (.shr 1 2) := by decide
theorem test_decode_shl : decode 0b1000_0001_0010_1110 = .ok (.shl 1 2) := by decide
theorem test_decode_ldI : decode 0b1010_0010_1111_0000 = .ok (.ldI 0x2F0) := by decide
theorem test_decode_ldF : decode 0b1111_0010_0010_1001 = .ok (.ldF 2) := by decide
theorem test_decode_addI : decode 0b1111_0001_0001_1110 = .ok (.addI 1) := by decide
theorem test_decode_ldB : decode 0b1111_0011_0011_0011 = .ok (.ldB 3) := by decide
theorem test_decode_storeRegs : decode 0b1111_0001_0101_0101 = .ok (.storeRegs 1) := by decide
theorem test_decode_loadRegs : decode 0b1111_0010_0110_0101 = .ok (.loadRegs 2) := by decide
theorem test_decode_rnd : decode 0b1100_0011_0000_1111 = .ok (.rnd 3 0x0F) := by decide
theorem test_decode_skp : decode 0b1110_0001_1001_1110 = .ok (.skp 1) := by decide
theorem test_decode_sknp : decode 0b1110_0001_1010_0001 = .ok (.sknp 1) := by decide
theorem test_decode_ldKey : decode 0b1111_0101_0000_1010 = .ok (.ldKey 5) := by decide
theorem test_decode_ldFromDT : decode 0b1111_0011_0000_0111 = .ok (.ldFromDT 3) := by decide
theorem test_decode_ldDT : decode 0b1111_0011_0001_0101 = .ok (.ldDT 3) := by decide
theorem test_decode_ldST : decode 0b1111_0100_0001_1000 = .ok (.ldST 4) := by decide
theorem test_decode_cls : decode 0b0000_0000_1110_0000 = .ok (.cls) := by decide
theorem test_decode_drw : decode 0b1101_0001_0010_0101 = .ok (.drw 1 2 5) := by decide

/-- FE7: words that are no instruction (R77). -/
theorem test_decode_unknown :
    ([0x0000, 0x0123, 0x00E1, 0x00FE, 0x5121, 0x9125, 0x8128, 0x812F, 0xE19F, 0xE000, 0xF1FF, 0xF100, 0xF175, 0xF185, 0xF130,
      0xFFFF] : List Word).all (fun w => decide (decode w = .error (.unknownInstruction w))) = true := by decide

/-- The table's numbering of bits: bit 0 is the least significant bit of the word, and the high byte comes first in memory. -/
theorem test_table_word :
    decodeTableWord 16 0x6105 = some (.ldImm 1 5) ∧ decodeTableWord 8 0xE0 = some .cls ∧
      bytesOfWord (tableWord 16 0x6105) = [0x61, 0x05] := by decide

/-! ### Control flow -/

/-- CF1, CF2 -/
theorem test_jp :
    runs State.reset 0x1234 (fun t => t.pc == 0x234) = true ∧
    runs State.reset 0x1201 (fun t => t.pc == 0x201) = true := by decide +kernel

/-- CF29 -/
theorem test_jp_last_slot :
    runs { State.reset with pc := 0xFFE } 0x1200 (fun t => t.pc == 0x200) = true := by decide +kernel

/-- CF5, CF6 -/
theorem test_call :
    runs State.reset 0x2300 (fun t => t.stackAt 0 == 0x202 && t.sp == 1 && t.pc == 0x300) = true ∧
    runs { State.reset with sp := 15 } 0x2300 (fun t => t.stackAt 15 == 0x202 && t.sp == 16 && t.pc == 0x300) = true := by decide +kernel

/-- CF7 -/
theorem test_call_overflow :
    faults { State.reset with sp := 16 } 0x2300 .stackOverflow 0x200 = true := by decide +kernel

/-- CF10 -/
theorem test_ret :
    runs { State.reset with sp := 3, stack := State.reset.stack.set 2 0x456 } 0x00EE (fun t => t.sp == 2 && t.pc == 0x456 && t.stackAt 2 == 0x456) = true := by decide +kernel

/-- CF11 -/
theorem test_ret_underflow :
    faults State.reset 0x00EE .stackUnderflow 0x200 = true := by decide +kernel

/-- CF13, CF14 -/
theorem test_se_imm :
    runs (withRegs [(3, 0x42)] State.reset) 0x3342 (fun t => t.pc == 0x204) = true ∧
    runs (withRegs [(3, 0x42)] State.reset) 0x3343 (fun t => t.pc == 0x202) = true := by decide +kernel

/-- CF15, CF16 -/
theorem test_sne_imm :
    runs (withRegs [(3, 0x42)] State.reset) 0x4342 (fun t => t.pc == 0x202) = true ∧
    runs (withRegs [(3, 0x42)] State.reset) 0x4300 (fun t => t.pc == 0x204) = true := by decide +kernel

/-- CF17, CF18 -/
theorem test_se_reg :
    runs (withRegs [(1, 7), (2, 7)] State.reset) 0x5120 (fun t => t.pc == 0x204) = true ∧
    runs (withRegs [(1, 7), (2, 8)] State.reset) 0x5120 (fun t => t.pc == 0x202) = true := by decide +kernel

/-- CF20, CF21 -/
theorem test_sne_reg :
    runs (withRegs [(1, 7), (2, 8)] State.reset) 0x9120 (fun t => t.pc == 0x204) = true ∧
    runs (withRegs [(1, 7), (2, 7)] State.reset) 0x9120 (fun t => t.pc == 0x202) = true := by decide +kernel

/-- CF23, CF24: not reduced modulo 4096 -/
theorem test_jp_v0 :
    runs (withRegs [(0, 0x04)] State.reset) 0xB300 (fun t => t.pc == 0x304) = true ∧
    runs (withRegs [(0, 0xFF)] State.reset) 0xBFFF (fun t => t.pc == 0x10FE) = true := by decide +kernel

/-! ### Register operations -/

/-- RG1, RG2 -/
theorem test_ld_imm :
    runs State.reset 0x6105 (fun t => t.getV 1 == 5 && t.pc == 0x202) = true ∧
    runs State.reset 0x6FAB (fun t => t.getV 0xF == 0xAB) = true := by decide +kernel

/-- RG3 -/
theorem test_add_imm :
    runs (withRegs [(2, 0xFE), (0xF, 0x77)] State.reset) 0x7205 (fun t => t.getV 2 == 0x03 && t.getV 0xF == 0x77) = true := by decide +kernel

/-- RG7 -/
theorem test_ld_reg :
    runs (withRegs [(4, 0x9C)] State.reset) 0x8340 (fun t => t.getV 3 == 0x9C && t.getV 4 == 0x9C) = true := by decide +kernel

/-- RG9 -/
theorem test_or :
    runs (withRegs [(1, 0xF0), (2, 0x0F), (0xF, 0x5A)] State.reset) 0x8121 (fun t => t.getV 1 == 0xFF && t.getV 0xF == 0x5A) = true := by decide +kernel

/-- RG10 -/
theorem test_and :
    runs (withRegs [(1, 0xFC), (2, 0x3F), (0xF, 0x5A)] State.reset) 0x8122 (fun t => t.getV 1 == 0x3C && t.getV 0xF == 0x5A) = true := by decide +kernel

/-- RG11 -/
theorem test_xor :
    runs (withRegs [(1, 0xFF), (2, 0x0F), (0xF, 0x5A)] State.reset) 0x8123 (fun t => t.getV 1 == 0xF0 && t.getV 0xF == 0x5A) = true := by decide +kernel

/-- RG14, RG16 -/
theorem test_add_reg :
    runs (withRegs [(1, 0xFF), (2, 1)] State.reset) 0x8124 (fun t => t.getV 1 == 0 && t.getV 0xF == 1) = true ∧
    runs (withRegs [(1, 0xF0), (2, 0x0F), (0xF, 1)] State.reset) 0x8124 (fun t => t.getV 1 == 0xFF && t.getV 0xF == 0) = true := by decide +kernel

/-- VF2, VF1, under both write orders -/
theorem test_add_reg_vf :
    runs (withRegs [(3, 0xFF), (0xF, 2)] State.reset) 0x83F4 (fun t => t.getV 3 == 1 && t.getV 0xF == 1) = true ∧
    runs (withParams .raw .flagFirst (withRegs [(3, 0xFF), (0xF, 2)] State.reset)) 0x83F4 (fun t => t.getV 3 == 0 && t.getV 0xF == 1) = true ∧
    runs (withRegs [(3, 2), (0xF, 0xFF)] State.reset) 0x8F34 (fun t => t.getV 0xF == 1) = true ∧
    runs (withParams .raw .flagFirst (withRegs [(3, 2), (0xF, 0xFF)] State.reset)) 0x8F34 (fun t => t.getV 0xF == 3) = true := by decide +kernel

/-- RG19, RG21 -/
theorem test_sub :
    runs (withRegs [(1, 0x10), (2, 0x20)] State.reset) 0x8125 (fun t => t.getV 1 == 0xF0 && t.getV 0xF == 0) = true ∧
    runs (withRegs [(1, 5), (2, 5)] State.reset) 0x8125 (fun t => t.getV 1 == 0 && t.getV 0xF == 1) = true := by decide +kernel

/-- VF4, VF5, under both write orders -/
theorem test_sub_vf :
    runs (withRegs [(3, 7), (0xF, 5)] State.reset) 0x8F35 (fun t => t.getV 0xF == 0) = true ∧
    runs (withParams .raw .flagFirst (withRegs [(3, 7), (0xF, 5)] State.reset)) 0x8F35 (fun t => t.getV 0xF == 0xF9) = true ∧
    runs (withRegs [(3, 1), (0xF, 3)] State.reset) 0x83F5 (fun t => t.getV 3 == 0xFE) = true ∧
    runs (withParams .raw .flagFirst (withRegs [(3, 1), (0xF, 3)] State.reset)) 0x83F5 (fun t => t.getV 3 == 1) = true := by decide +kernel

/-- RG24, RG25 -/
theorem test_subn :
    runs (withRegs [(1, 0x10), (2, 0x20)] State.reset) 0x8127 (fun t => t.getV 1 == 0x10 && t.getV 0xF == 1 && t.getV 2 == 0x20) = true ∧
    runs (withRegs [(1, 0x20), (2, 0x10)] State.reset) 0x8127 (fun t => t.getV 1 == 0xF0 && t.getV 0xF == 0) = true := by decide +kernel

/-- VF6, under both write orders -/
theorem test_subn_vf :
    runs (withRegs [(3, 7), (0xF, 5)] State.reset) 0x8F37 (fun t => t.getV 0xF == 1) = true ∧
    runs (withParams .raw .flagFirst (withRegs [(3, 7), (0xF, 5)] State.reset)) 0x8F37 (fun t => t.getV 0xF == 6) = true := by decide +kernel

/-- RG31, RG32 -/
theorem test_shr :
    runs (withRegs [(1, 0xFF)] State.reset) 0x8106 (fun t => t.getV 1 == 0x7F && t.getV 0xF == 1) = true ∧
    runs (withRegs [(1, 0xFE), (2, 1)] State.reset) 0x8126 (fun t => t.getV 1 == 0x7F && t.getV 0xF == 0 && t.getV 2 == 1) = true := by decide +kernel

/-- VF7, under both write orders -/
theorem test_shr_vf :
    runs (withRegs [(0xF, 3)] State.reset) 0x8F06 (fun t => t.getV 0xF == 1) = true ∧
    runs (withParams .raw .flagFirst (withRegs [(0xF, 3)] State.reset)) 0x8F06 (fun t => t.getV 0xF == 0) = true := by decide +kernel

/-- RG33, RG37 -/
theorem test_shl :
    runs (withRegs [(1, 0x81)] State.reset) 0x810E (fun t => t.getV 1 == 2 && t.getV 0xF == 1) = true ∧
    runs (withRegs [(1, 0x40), (2, 0xFF)] State.reset) 0x812E (fun t => t.getV 1 == 0x80 && t.getV 0xF == 0) = true := by decide +kernel

/-- VF9, under both write orders -/
theorem test_shl_vf :
    runs (withRegs [(0xF, 0xC1)] State.reset) 0x8F0E (fun t => t.getV 0xF == 1) = true ∧
    runs (withParams .raw .flagFirst (withRegs [(0xF, 0xC1)] State.reset)) 0x8F0E (fun t => t.getV 0xF == 2) = true := by decide +kernel

/-! ### Address register and memory -/

/-- ME1, ME3 -/
theorem test_ld_i :
    runs { State.reset with i := 0x1234 } 0xA2F0 (fun t => t.i == 0x2F0) = true := by decide +kernel

/-- ME5, ME6 -/
theorem test_ld_f :
    runs (withRegs [(2, 0x1A)] State.reset) 0xF229 (fun t => t.i == 0x32) = true ∧
    runs (withRegs [(2, 0xFF)] State.reset) 0xF229 (fun t => t.i == 0x4B) = true := by decide +kernel

/-- ME9, ME13 -/
theorem test_add_i :
    runs { (withRegs [(1, 0x0F), (0xF, 1)] State.reset) with i := 0xFF0 } 0xF11E (fun t => t.i == 0xFFF && t.getV 0xF == 0) = true ∧
    runs { (withRegs [(1, 1)] State.reset) with i := 0xFFFF } 0xF11E (fun t => t.i == 0 && t.getV 0xF == 1) = true := by decide +kernel

/-- VF11, under both write orders -/
theorem test_add_i_vf :
    runs { (withRegs [(0xF, 2)] State.reset) with i := 0xFFE } 0xFF1E (fun t => t.i == 0x1000 && t.getV 0xF == 1) = true ∧
    runs (withParams .raw .flagFirst { (withRegs [(0xF, 2)] State.reset) with i := 0xFFE }) 0xFF1E (fun t => t.i == 0xFFF && t.getV 0xF == 1) = true := by decide +kernel

/-- ME14, ME18 -/
theorem test_ld_b :
    runs { (withRegs [(3, 156)] State.reset) with i := 0x300 } 0xF333 (fun t => t.readByte 0x300 == 1 && t.readByte 0x301 == 5 && t.readByte 0x302 == 6 && t.i == 0x300) = true ∧
    runs { (withRegs [(3, 255)] State.reset) with i := 0xFFD } 0xF333 (fun t => t.readByte 0xFFD == 2 && t.readByte 0xFFE == 5 && t.readByte 0xFFF == 5) = true := by decide +kernel

/-- ME19, ME20 -/
theorem test_ld_b_fault :
    faults { (withRegs [(3, 255)] State.reset) with i := 0xFFE } 0xF333 .memoryOutOfRange 0x1000 = true ∧
    faults { (withRegs [(3, 255)] State.reset) with i := 0x1003 } 0xF333 .memoryOutOfRange 0x1003 = true := by decide +kernel

/-- ME21, ME22 -/
theorem test_store_regs :
    runs { (withRegs [(0, 0xAA), (1, 0xBB), (2, 0xCC)] State.reset) with i := 0x400 } 0xF155 (fun t => t.readByte 0x400 == 0xAA && t.readByte 0x401 == 0xBB && t.readByte 0x402 == 0 && t.i == 0x402) = true ∧
    runs { (withRegs [(0, 0x12)] State.reset) with i := 0xFFF } 0xF055 (fun t => t.readByte 0xFFF == 0x12 && t.i == 0x1000) = true := by decide +kernel

/-- ME25 -/
theorem test_store_regs_fault :
    faults { (withRegs [(0, 1), (1, 2)] State.reset) with i := 0xFFF } 0xF155 .memoryOutOfRange 0x1000 = true := by decide +kernel

/-- ME26, ME30 -/
theorem test_load_regs :
    runs { withBytes [(0x400, 1), (0x401, 2), (0x402, 3), (0x403, 4)] (withRegs [(3, 0x99)] State.reset) with i := 0x400 } 0xF265 (fun t => t.getV 0 == 1 && t.getV 1 == 2 && t.getV 2 == 3 && t.getV 3 == 0x99 && t.i == 0x403) = true ∧
    runs { State.reset with i := 0x200 } 0xF065 (fun t => t.getV 0 == 0xF0 && t.i == 0x201) = true := by decide +kernel

/-- ME27 -/
theorem test_load_regs_font :
    runs State.reset 0xFF65 (fun t => t.v.toList == [0xF0, 0x90, 0x90, 0x90, 0xF0, 0x20, 0x60, 0x20, 0x20, 0x70, 0xF0, 0x10, 0xF0, 0x80, 0xF0, 0xF0] && t.i == 0x10) = true := by decide +kernel

/-! ### Random, keys, timers -/

/-- RN1, RN2, RN3, for the drawn byte given. -/
theorem test_rnd_mask :
    (∀ t, rndWith 0xB7 3 0x0F State.reset = .next t → t.getV 3 = 0x07) ∧
    (∀ t, rndWith 0xFF 3 0x00 (withRegs [(3, 0x55)] State.reset) = .next t → t.getV 3 = 0x00) ∧
    (∀ t, rndWith 0xA9 3 0xFF State.reset = .next t → t.getV 3 = 0xA9) := by
  refine ⟨?_, ?_, ?_⟩ <;> rintro _ ⟨⟩ <;> decide

/-- R160: one byte is drawn, and `pc` moves on, whatever the byte is. -/
theorem test_rnd_draws_one :
    ∃ t, execRnd 3 0xF0 State.reset = .next t ∧ t.draws = 1 ∧ t.pc = 0x202 ∧ t.getV 2 = 0 := ⟨_, rfl, rfl, rfl, rfl⟩

/-- KY1, KY2, KY3 -/
theorem test_skp :
    runs ((withRegs [(1, 0x0A)] State.reset).setKey 10 true) 0xE19E (fun t => t.pc == 0x204) = true ∧
    runs (withRegs [(1, 0x0A)] State.reset) 0xE19E (fun t => t.pc == 0x202) = true ∧
    runs { (withRegs [(1, 2)] State.reset) with keys := State.reset.keys.set 2 0x80 } 0xE19E (fun t => t.pc == 0x204) = true := by decide +kernel

/-- KY4, KY5 -/
theorem test_skp_fault :
    faults ((withRegs [(1, 0x10)] State.reset).setKey 0 true) 0xE19E .keyIndexOutOfRange 0x10 = true ∧
    faults (withRegs [(1, 0xFF)] State.reset) 0xE19E .keyIndexOutOfRange 0xFF = true := by decide +kernel

/-- KY6, KY7 -/
theorem test_sknp :
    runs (withRegs [(1, 0x0A)] State.reset) 0xE1A1 (fun t => t.pc == 0x204) = true ∧
    runs ((withRegs [(1, 0x0A)] State.reset).setKey 10 true) 0xE1A1 (fun t => t.pc == 0x202) = true := by decide +kernel

/-- KY8 -/
theorem test_sknp_fault :
    faults (withRegs [(1, 0x1A)] State.reset) 0xE1A1 .keyIndexOutOfRange 0x1A = true := by decide +kernel

/-- KY10, KY11 -/
theorem test_ld_key :
    runs (((State.reset.setKey 3 true).setKey 9 true).setKey 12 true) 0xF50A (fun t => t.getV 5 == 3 && t.pc == 0x202) = true ∧
    runs { (State.reset.setKey 0 true) with dt := 5 } 0xF50A (fun t => t.getV 5 == 0 && t.dt == 4) = true := by decide +kernel

/-- KY12 -/
theorem test_ld_key_waits :
    runs { (withRegs [(5, 0x44)] State.reset) with dt := 5, st := 6 } 0xF50A
      (fun t => t == { ({ (withRegs [(5, 0x44)] State.reset) with dt := 5, st := 6 } : State).withFetchWord 16 0xF50A with result := .waitingForKey }) = true := by decide +kernel

/-- TM1: the read comes before the decrement -/
theorem test_ld_from_dt :
    runs { State.reset with dt := 0x10 } 0xF307 (fun t => t.getV 3 == 0x10 && t.dt == 0x0F) = true := by decide +kernel

/-- TM4, TM5: the decrement comes after the write -/
theorem test_ld_dt :
    runs (withRegs [(3, 0x3C)] State.reset) 0xF315 (fun t => t.dt == 0x3B) = true ∧
    runs { State.reset with dt := 9 } 0xF315 (fun t => t.dt == 0) = true := by decide +kernel

/-- TM8 -/
theorem test_ld_st :
    runs { (withRegs [(4, 0xFF)] State.reset) with dt := 3 } 0xF418 (fun t => t.st == 0xFE && t.dt == 2) = true := by decide +kernel

/-! ### Display -/

/-- S3 -/
theorem test_cls :
    runs (withCellsLit [(0, 0), (36, 1), (63, 31)] (withRegs [(0xF, 1)] State.reset)) 0x00E0 (fun t => lit [] t && t.redrawPending && t.getV 0xF == 1 && t.pc == 0x202) = true := by decide +kernel

/-- S4 -/
theorem test_drw_glyph :
    runs State.reset 0xD015 (fun t => lit [(0, 0), (1, 0), (2, 0), (3, 0), (0, 1), (3, 1), (0, 2), (3, 2), (0, 3), (3, 3), (0, 4), (1, 4), (2, 4), (3, 4)] t &&
      t.getV 0xF == 0 && t.redrawPending && t.pc == 0x202 && t.i == 0) = true := by decide +kernel

/-- DS10, under the three policies -/
theorem test_drw_edges :
    runs (withParams .raw .flagLast { withBytes [(0x300, 0xFF)] (withRegs [(0, 60), (1, 0)] State.reset) with i := 0x300 }) 0xD011 (fun t => lit [(60, 0), (61, 0), (62, 0), (63, 0), (0, 1), (1, 1), (2, 1), (3, 1)] t) = true ∧
    runs (withParams .clip .flagLast { withBytes [(0x300, 0xFF)] (withRegs [(0, 60), (1, 0)] State.reset) with i := 0x300 }) 0xD011 (fun t => lit [(60, 0), (61, 0), (62, 0), (63, 0)] t) = true ∧
    runs (withParams .wrap .flagLast { withBytes [(0x300, 0xFF)] (withRegs [(0, 60), (1, 0)] State.reset) with i := 0x300 }) 0xD011 (fun t => lit [(60, 0), (61, 0), (62, 0), (63, 0), (0, 0), (1, 0), (2, 0), (3, 0)] t) = true := by decide +kernel

/-! ### The cycle, the loader, the host -/

/-- FE1 to FE5 -/
theorem test_fetch_faults :
    (match step { State.reset with pc := 0x1FE } with | .next t => t == { State.reset with pc := 0x1FE, status := .faulted .pcOutOfRange 0x1FE, result := .fatal .pcOutOfRange 0x1FE } | _ => false) = true ∧
    (match step { State.reset with pc := 0x1001 } with | .next t => t == { State.reset with pc := 0x1001, status := .faulted .pcOutOfRange 0x1001, result := .fatal .pcOutOfRange 0x1001 } | _ => false) = true ∧
    (match step { State.reset with pc := 0xFFF } with | .next t => t == { State.reset with pc := 0xFFF, status := .faulted .pcOutOfRange 0xFFF, result := .fatal .pcOutOfRange 0xFFF } | _ => false) = true ∧
    (match step { State.reset with pc := 0xFFFF } with | .next t => t == { State.reset with pc := 0xFFFF, status := .faulted .pcOutOfRange 0xFFFF, result := .fatal .pcOutOfRange 0xFFFF } | _ => false) = true ∧
    (match step { State.reset with pc := 0x201 } with | .next t => t == { State.reset with pc := 0x201, status := .faulted .pcMisaligned 0x201, result := .fatal .pcMisaligned 0x201 } | _ => false) = true := by decide +kernel

/-- The table of R200 -/
theorem test_error_codes :
    [FatalCause.stackOverflow, .stackUnderflow, .pcOutOfRange, .pcMisaligned, .memoryOutOfRange, .keyIndexOutOfRange,
      .framebufferOutOfRange].map FatalCause.code = [3, 4, 5, 6, 7, 8, 9] ∧
    (LoadError.imageTooLarge 3585).code = 1 ∧ State.err { State.reset with result := .unknownInstruction 0x8128 } = some (2, 0x8128) := by decide +kernel

/-- FE6 -/
theorem test_halted :
    (match step { State.reset with status := .faulted .stackUnderflow 0x200, dt := 3 } with
      | .next t => t == { State.reset with status := .faulted .stackUnderflow 0x200, dt := 3 }
      | _ => false) = true := by decide +kernel

/-- FE7 -/
theorem test_unknown_word :
    runs { State.reset with dt := 3 } 0x8128 (fun t => t == { ({ State.reset with dt := 3 } : State).withFetchWord 16 0x8128 with result := .unknownInstruction 0x8128 }) = true := by decide +kernel

/-- TM9, TM10 -/
theorem test_tick :
    runs { State.reset with dt := 1, st := 2 } 0x1200 (fun t => t.dt == 0 && t.st == 1) = true ∧
    runs State.reset 0x6000 (fun t => t.dt == 0 && t.st == 0) = true := by decide +kernel

/-- LD3 -/
theorem test_load_odd :
    (match (State.reset.boot [0x61] : Except LoadError State) with
      | .ok s => s.readByte 0x200 == 0x61 && s.readByte 0x201 == 0 && (match step s with | .next t => t.pc == 0x202 && t.getV 1 == 0 | _ => false)
      | .error _ => false) = true := by decide +kernel

/-- LD1: the reset table, and LD2: the first cycle of an empty image. -/
theorem test_reset :
    State.reset.pc = 0x200 ∧ (List.range 6).map State.reset.readByte = [0xF0, 0x90, 0x90, 0x90, 0xF0, 0x20] ∧
      State.reset.readByte 80 = 0 ∧ State.reset.status = .running ∧
      (match step State.reset with | .next t => t.err | _ => none) = some (2, 0x0000) := by decide +kernel

/-! ### Witnesses: for every obligation with hypotheses, a state and operands that meet them, each clause at its boundaries -/

/-- A word that decodes (O2, and the first clause of O3). -/
theorem witness_EncodeOfDecodeIsTheWord : decode 0x6105 = .ok (.ldImm 1 5) := by decide

/-- O3: a word that decodes, a word that selects a row, a word that selects none. -/
theorem witness_DecodeFollowsTheOpcodeMap :
    decode 0x8124 = .ok (.addReg 1 2) ∧ (0x8124 : Word) &&& (Instr.addReg 1 2).row.mask = (Instr.addReg 1 2).row.value ∧
      ∀ i : Instr, (0x0000 : Word) &&& i.row.mask ≠ i.row.value := by
  refine ⟨by decide, by decide, fun i => ?_⟩
  cases i <;> simp only [Instr.row] <;> decide

/-- O7: at the first and at the last address an instruction can stand. -/
theorem witness_StepRunsTheDecodedInstruction :
    ∀ a ∈ [(0x200 : Word), 0xFFE], ∃ (s : State) (i : Instr), s.pc = a ∧ s.status = .running ∧ 0x200 ≤ s.pc.toNat ∧
      s.pc.toNat ≤ 0xFFE ∧ s.pc.toNat % 2 = 0 ∧
      decodeBytes [s.readByte s.pc.toNat, s.readByte (s.pc.toNat + 1)] = .ok (i, []) := by
  intro a ha
  simp only [List.mem_cons, List.not_mem_nil, or_false] at ha
  rcases ha with rfl | rfl
  · exact ⟨State.reset.withFetchWord 16 0x1200, .jp 0x200, by decide +kernel⟩
  · exact ⟨({ State.reset with pc := 0xFFE } : State).withFetchWord 16 0x1200, .jp 0x200, by decide +kernel⟩

/-- O8: a word that decodes, a state that can fetch and one that cannot. -/
theorem witness_PlacedWordIsRunNext :
    decode 0x1200 = .ok (.jp 0x200) ∧ State.reset.fetchable = true ∧ State.fetchable { State.reset with pc := 0x201 } = false := by
  decide

/-- O9: both sides of the range, and an odd address at each end of it. -/
theorem witness_FetchChecksFault :
    State.reset.status = .running ∧ (0x1FE : Word).toNat < 0x200 ∧ 0xFFE < (0xFFF : Word).toNat ∧
      (0x200 ≤ (0x201 : Word).toNat ∧ (0x201 : Word).toNat ≤ 0xFFE ∧ (0x201 : Word).toNat % 2 = 1) ∧
      0x200 ≤ (0xFFD : Word).toNat ∧ (0xFFD : Word).toNat ≤ 0xFFE ∧ (0xFFD : Word).toNat % 2 = 1 := by
  decide

/-- O10: an unknown word at `pc` (the empty memory's 0x0000), and a key wait with no key pressed. -/
theorem witness_NotCompletedChangesNothing :
    (State.reset.fetchable = true ∧ (0x0000 : Word) = fetchWord State.reset ∧ decode 0x0000 = .error (.unknownInstruction 0x0000)) ∧
    ∃ s : State, s.fetchable = true ∧ decode (fetchWord s) = .ok (.ldKey 5) ∧ ∀ k, s.pressed k = false :=
  ⟨by decide +kernel, State.reset.withFetchWord 16 0xF50A, by decide +kernel⟩

/-- O11: a halted core. -/
theorem witness_HaltedCoreDoesNothing :
    ∃ (s : State) (c : FatalCause) (info : Word), s.status = .faulted c info :=
  ⟨takeFault .stackUnderflow 0x200 State.reset, _, _, rfl⟩

/-- O12: a cycle with each outcome its later clauses speak of. -/
theorem witness_EveryCycleEndsInOneOutcome :
    (∃ (s t : State) (w : Word), step s = .next t ∧ t.result = .unknownInstruction w) ∧
    (∃ (s t : State) (c : FatalCause) (info : Word), step s = .next t ∧ t.result = .fatal c info) ∧
    (∃ s t : State, step s = .next t ∧ t.result = .completed) ∧
    (∃ s t : State, step s = .next t ∧ t.result = .waitingForKey) ∧ ∃ s t : State, step s = .next t ∧ t.result = .idle :=
  ⟨⟨State.reset, _, _, rfl, rfl⟩, ⟨{ State.reset with pc := 0x201 }, _, _, _, rfl, rfl⟩,
   ⟨State.reset.withFetchWord 16 0x1200, _, rfl, rfl⟩, ⟨State.reset.withFetchWord 16 0xF50A, _, rfl, rfl⟩,
   ⟨takeFault .stackUnderflow 0x200 State.reset, _, rfl, rfl⟩⟩

/-- O13: a cycle that changes `status`. -/
theorem witness_FaultEntryWritesStatusAlone :
    ∃ s t : State, step s = .next t ∧ t.status ≠ s.status :=
  ⟨State.reset.withFetchWord 16 0x00EE, _, rfl, by decide +kernel⟩

/-- O14: a cycle that does not complete, one that completes and writes no timer, one that writes DT, one that writes ST. -/
theorem witness_TimersCountCompletedCycles :
    (∃ s t : State, step s = .next t ∧ t.result ≠ .completed) ∧
    (∃ s t : State, step s = .next t ∧ t.result = .completed ∧ (∀ x, decode (fetchWord s) ≠ .ok (.ldDT x)) ∧
      ∀ x, decode (fetchWord s) ≠ .ok (.ldST x)) ∧
    (∃ (s t : State) (x : Nibble), step s = .next t ∧ t.result = .completed ∧ decode (fetchWord s) = .ok (.ldDT x)) ∧
    ∃ (s t : State) (x : Nibble), step s = .next t ∧ t.result = .completed ∧ decode (fetchWord s) = .ok (.ldST x) :=
  ⟨⟨State.reset, _, rfl, by decide +kernel⟩,
   ⟨State.reset.withFetchWord 16 0x1200, _, rfl, rfl, by decide +kernel, by decide +kernel⟩,
   ⟨State.reset.withFetchWord 16 0xF315, _, 3, rfl, rfl, by decide +kernel⟩,
   ⟨State.reset.withFetchWord 16 0xF418, _, 4, rfl, rfl, by decide +kernel⟩⟩

/-- O15: a finished program with timers running. -/
theorem witness_FinishedProgramStaysFinished :
    ∃ s : State, s.finished ∧ s.dt = 3 :=
  ⟨({ State.reset with dt := 3 } : State).withFetchWord 16 0x1200, ⟨by decide +kernel, 0x200, by decide +kernel, by decide +kernel⟩,
   by decide +kernel⟩

/-- O16, O17: a word of each row. -/
theorem witness_JpSetsPc : (0x1234 : Word) &&& 0xF000 = 0x1000 := by decide

theorem witness_JpV0SetsPcToTheSum : (0xBFFF : Word) &&& 0xF000 = 0xB000 := by decide

/-- O18: the first and the last free entry. -/
theorem witness_CallPushesTheNextAddress :
    (0x2300 : Word) &&& 0xF000 = 0x2000 ∧ State.reset.sp.val < 16 ∧ ({ State.reset with sp := 15 } : State).sp.val < 16 := by
  decide

/-- O19: one entry, and a full stack. -/
theorem witness_RetPopsPc :
    0 < ({ State.reset with sp := 1 } : State).sp.val ∧ 0 < ({ State.reset with sp := 16 } : State).sp.val := by decide

/-- O20: a full stack, and an empty one. -/
theorem witness_StackFaults :
    ({ State.reset with sp := 16 } : State).sp.val = 16 ∧ State.reset.sp.val = 0 := by decide

/-- O21: a call at the deepest level, and a state with the stack it left. -/
theorem witness_RetUndoesCall :
    ∃ (nnn : Addr12) (s t u : State), s.sp.val = 15 ∧ s.sp.val < 16 ∧ exec (.call nnn) s = .next t ∧ sameStack t u :=
  ⟨0x300, { State.reset with sp := 15 }, _, _, rfl, by decide, rfl, rfl, rfl⟩

/-- O22, O23: a word of each row. -/
theorem witness_ImmediateSkips :
    (0x3342 : Word) &&& 0xF000 = 0x3000 ∧ (0x4342 : Word) &&& 0xF000 = 0x4000 := by decide

theorem witness_RegisterSkips :
    (0x5120 : Word) &&& 0xF00F = 0x5000 ∧ (0x9120 : Word) &&& 0xF00F = 0x9000 := by decide

/-- O24, O25, O26: a word of each row, and another register than the destination. -/
theorem witness_LdImmLoadsTheByte : (0x6105 : Word) &&& 0xF000 = 0x6000 ∧ (2 : Nibble) ≠ 1 := by decide

theorem witness_AddImmAndRegisterCopy :
    (0x7205 : Word) &&& 0xF000 = 0x7000 ∧ (0x8340 : Word) &&& 0xF00F = 0x8000 ∧ (2 : Nibble) ≠ 1 := by decide

theorem witness_LogicalOperations :
    (0x8121 : Word) &&& 0xF00F = 0x8001 ∧ (0x8122 : Word) &&& 0xF00F = 0x8002 ∧ (0x8123 : Word) &&& 0xF00F = 0x8003 ∧
      (2 : Nibble) ≠ 1 := by decide

/-- O27 to O29 and O33: a word of each row, the default write order, a destination other than VF. -/
theorem witness_AddSetsTheCarry :
    (0x8124 : Word) &&& 0xF00F = 0x8004 ∧ State.reset.cfg.vfWriteOrder = .flagLast ∧ (1 : Nibble) ≠ 0xF := by decide

theorem witness_SubtractionsSetNoBorrow :
    (0x8125 : Word) &&& 0xF00F = 0x8005 ∧ (0x8127 : Word) &&& 0xF00F = 0x8007 ∧ State.reset.cfg.vfWriteOrder = .flagLast ∧
      (1 : Nibble) ≠ 0xF := by decide

theorem witness_ShiftsByOne :
    (0x8126 : Word) &&& 0xF00F = 0x8006 ∧ (0x812E : Word) &&& 0xF00F = 0x800E ∧ State.reset.cfg.vfWriteOrder = .flagLast ∧
      (1 : Nibble) ≠ 0xF := by decide

theorem witness_AddISetsTheAddressFlag :
    (0xF11E : Word) &&& 0xF0FF = 0xF01E ∧ State.reset.cfg.vfWriteOrder = .flagLast := by decide

/-- O30: the other write order, with a flag of each value. -/
theorem witness_FlagFirstRecomputesTheResult :
    ∃ s : State, s.cfg.vfWriteOrder = .flagFirst ∧ true = decide ((s.getV 1).toNat + (s.getV 2).toNat > 255) ∧
      false = decide ((s.getV 1).toNat ≥ (s.getV 3).toNat) :=
  ⟨withParams .raw .flagFirst (withRegs [(1, 0xF0), (2, 0x10), (3, 0xF1)] State.reset), by decide +kernel⟩

/-- O31: operands other than VF. -/
theorem witness_WriteOrderMattersOnlyForVF : (0xE : Nibble) ≠ 0xF ∧ (0 : Nibble) ≠ 0xF := by decide

/-- O32: a word of each row. -/
theorem witness_AddressLoads : (0xA2F0 : Word) &&& 0xF000 = 0xA000 ∧ (0xF229 : Word) &&& 0xF0FF = 0xF029 := by decide

/-- O34 to O37: the last address at which each still fits. -/
theorem witness_LdBStoresDecimalDigits :
    (0xF333 : Word) &&& 0xF0FF = 0xF033 ∧ ({ State.reset with i := 0xFFD } : State).i.toNat + 2 ≤ 0xFFF := by decide

theorem witness_BulkStore :
    (0xF155 : Word) &&& 0xF0FF = 0xF055 ∧ ({ State.reset with i := 0xFF0 } : State).i.toNat + (0xF : Nibble).toNat ≤ 0xFFF ∧
      ({ State.reset with i := 0xFFF } : State).i.toNat + (0 : Nibble).toNat ≤ 0xFFF := by decide

theorem witness_BulkLoad :
    (0xF265 : Word) &&& 0xF0FF = 0xF065 ∧ ({ State.reset with i := 0xFF0 } : State).i.toNat + (0xF : Nibble).toNat ≤ 0xFFF ∧
      ({ State.reset with i := 0xFFF } : State).i.toNat + (0 : Nibble).toNat ≤ 0xFFF := by decide

theorem witness_BulkLoadInvertsBulkStore :
    ∃ (x : Nibble) (s t u : State), exec (.storeRegs x) s = .next t ∧ t.result = .completed ∧ u.mem = t.mem ∧ u.cfg = t.cfg ∧
      u.i = s.i ∧ x = 0xF ∧ s.i = 0xFF0 := by
  obtain ⟨t, ht, hr⟩ : ∃ t, exec (.storeRegs 0xF) { State.reset with i := 0xFF0 } = .next t ∧ t.result = .completed :=
    ⟨_, rfl, rfl⟩
  exact ⟨0xF, _, t, { t with i := 0xFF0 }, ht, hr, rfl, rfl, rfl, rfl, rfl⟩

/-- O38: the first address at which each no longer fits, and the last I of all. -/
theorem witness_DataAccessFaults :
    ({ State.reset with i := 0xFFE } : State).i.toNat + 2 > 0xFFF ∧
    ({ State.reset with i := 0xFF1 } : State).i.toNat + (0xF : Nibble).toNat > 0xFFF ∧
    ({ State.reset with i := 0xFFFF } : State).i.toNat + (0 : Nibble).toNat > 0xFFF ∧
    ((2 : Nibble).toNat > 0 ∧ ({ State.reset with i := 0xFFF } : State).i.toNat + (2 : Nibble).toNat - 1 > 0xFFF) ∧
    (1 : Nibble).toNat > 0 ∧ ({ State.reset with i := 0x1000 } : State).i.toNat + (1 : Nibble).toNat - 1 > 0xFFF := by decide

/-- O39: the last byte of memory and another address; the last `pc` that can fetch. -/
theorem witness_ReadAfterWrite :
    0xFFF ≤ 0xFFF ∧ (0x1000 : Nat) ≠ 0xFFF ∧ ({ State.reset with pc := 0xFFE } : State).pc.toNat ≤ 0xFFE := by decide

/-- O40: a word of the row, and another register than the destination. -/
theorem witness_RndMasksTheDrawnByte : (0xC30F : Word) &&& 0xF000 = 0xC000 ∧ (2 : Nibble) ≠ 3 := by decide

/-- O41: the first and the last key number, a slot of 0 and one of 0x80. -/
theorem witness_KeySkips :
    (0xE19E : Word) &&& 0xF0FF = 0xE09E ∧ (0xE1A1 : Word) &&& 0xF0FF = 0xE0A1 ∧
    State.reset.keys.toList[(State.reset.getV 1).toNat]? = some 0 ∧
    ∃ s : State, (s.getV 1).toNat = 15 ∧ s.keys.toList[(s.getV 1).toNat]? = some 0x80 :=
  ⟨by decide, by decide, by decide +kernel,
   { withRegs [(1, 15)] State.reset with keys := State.reset.keys.set 15 0x80 }, by decide +kernel⟩

/-- O42: the first number that is no key, and a key wait that answers. -/
theorem witness_KeyNumberFaults :
    (∃ (s : State) (info : Word), (s.getV 1).toNat > 15 ∧ info.toNat = (s.getV 1).toNat ∧ info = 16) ∧
    ∃ s t : State, exec (.ldKey 5) s = .next t :=
  ⟨⟨withRegs [(1, 16)] State.reset, 16, by decide +kernel⟩, State.reset, _, rfl⟩

/-- O43: only the highest key pressed, and the lowest with another. -/
theorem witness_KeyWaitTakesTheLowestKey :
    (0xF50A : Word) &&& 0xF0FF = 0xF00A ∧
    (∃ s : State, s.pressed 15 = true ∧ ∀ j : Nibble, j.toNat < (15 : Nibble).toNat → s.pressed j = false) ∧
    ∃ s : State, s.pressed 0 = true ∧ s.pressed 9 = true ∧ ∀ j : Nibble, j.toNat < (0 : Nibble).toNat → s.pressed j = false :=
  ⟨by decide, ⟨State.reset.setKey 15 true, by decide +kernel⟩, ⟨(State.reset.setKey 0 true).setKey 9 true, by decide +kernel⟩⟩

/-- O44: a word of each row. -/
theorem witness_TimerMoves :
    (0xF307 : Word) &&& 0xF0FF = 0xF007 ∧ (0xF315 : Word) &&& 0xF0FF = 0xF015 ∧ (0xF418 : Word) &&& 0xF0FF = 0xF018 := by decide

/-- O45: the first and the last cell. -/
theorem witness_ClsClearsEveryCell : 0 < 2048 ∧ 2047 < 2048 := by decide

/-- The state O46, O49 and O50 are witnessed in: glyph 0 at (56, 27), the last place inside the screen, one cell under it lit. -/
def glyphState : State := withCellsLit [(56, 27)] (withRegs [(0, 56), (1, 27)] State.reset)

/-- O46: a draw of five rows in the last place that fits, one of no rows; a cell under a 1 bit that is lit, one that is not, one that
lies under no 1 bit; and a draw with no lit cell under it. -/
theorem witness_DrwXorsTheSprite :
    (0xD015 : Word) &&& 0xF000 = 0xD000 ∧ drawFits glyphState 0 1 5 ∧ drawFits { State.reset with i := 0xFFFF } 0 1 0 ∧
    (spriteHits glyphState 56 27 5 (27 * 64 + 56) ∧ glyphState.cell (27 * 64 + 56) = true) ∧
    (spriteHits glyphState 56 27 5 (27 * 64 + 57) ∧ glyphState.cell (27 * 64 + 57) = false) ∧
    ¬ spriteHits glyphState 56 27 5 (28 * 64 + 57) ∧
    ∀ k, spriteHits State.reset 0 0 5 k → State.reset.cell k = false := by
  refine ⟨by decide, .inr ⟨by decide +kernel, fun _ => by decide +kernel⟩, .inl (by decide),
    ⟨⟨0, 0, by decide, by decide, by decide +kernel, by decide +kernel⟩, by decide +kernel⟩,
    ⟨⟨0, 1, by decide, by decide, by decide +kernel, by decide +kernel⟩, by decide +kernel⟩, ?_, fun k _ => BitVec.getLsbD_zero⟩
  have h : 28 * 64 + 57 ∉ spriteCells glyphState 56 27 5 := by decide +kernel
  exact fun hit => h (mem_spriteCells.mpr hit)

/-- O47: the first rectangle that passes the last cell; and a policy with no such fault, and no rows. -/
theorem witness_FramebufferFaults :
    (∃ (s : State) (info : Word), s.cfg.drawEdge = .raw ∧ (1 : Nibble).toNat > 0 ∧ s.i.toNat + (1 : Nibble).toNat - 1 ≤ 0xFFF ∧
      ((s.getV 1).toNat + (1 : Nibble).toNat - 1) * 64 + (s.getV 0).toNat + 7 > 2047 ∧
      info.toNat = ((s.getV 1).toNat + (1 : Nibble).toNat - 1) * 64 + (s.getV 0).toNat + 7 ∧ info = 2048) ∧
    (∃ s t : State, s.cfg.drawEdge ≠ .raw ∧ exec (.drw 0 1 1) s = .next t) ∧
    ∃ s t : State, (0 : Nibble).toNat = 0 ∧ exec (.drw 0 1 0) s = .next t :=
  ⟨⟨withRegs [(0, 57), (1, 31)] State.reset, 2048, by decide +kernel⟩,
   ⟨withParams .clip .flagLast State.reset, _, by decide, rfl⟩, State.reset, _, rfl, rfl⟩

/-- O48: one sprite cell on a framebuffer cell, for the last row and column. -/
theorem witness_SpriteCellsAreDistinct :
    14 < 15 ∧ 7 < 8 ∧ cellAt .raw (0 + 7) (0 + 14) = some 903 ∧ cellAt .clip (0 + 7) (0 + 14) = some 903 ∧
      cellAt .wrap (63 + 7) (31 + 14) = some 838 := by decide

/-- O49: a draw that does not fault, with a cell of each value under the sprite. -/
theorem witness_DrawingTwiceRestores :
    ∃ t, (0 : Nibble) ≠ 0xF ∧ (1 : Nibble) ≠ 0xF ∧ drawFits glyphState 0 1 5 ∧ exec (.drw 0 1 5) glyphState = .next t :=
  ⟨_, by decide, by decide, .inr ⟨by decide +kernel, fun _ => by decide +kernel⟩, rfl⟩

/-- O50: the last place inside the screen, under `raw` and under `wrap`. -/
theorem witness_PoliciesAgreeOnScreen :
    ∃ t t', (glyphState.getV 0).toNat = 56 ∧ (glyphState.getV 0).toNat ≤ 56 ∧ (glyphState.getV 1).toNat + (5 : Nibble).toNat ≤ 32 ∧
      exec (.drw 0 1 5) glyphState = .next t ∧
      exec (.drw 0 1 5) { glyphState with cfg := { glyphState.cfg with drawEdge := .wrap } } = .next t' :=
  ⟨_, _, by decide +kernel, by decide +kernel, by decide +kernel, rfl, rfl⟩

/-- O51: an instruction that answers, and is none of those its clauses leave out. -/
theorem witness_EachElementHasItsWriters :
    ∃ t, exec (.ldReg 1 2) State.reset = .next t ∧ (∀ n, Instr.ldReg 1 2 ≠ .call n) ∧ Instr.ldReg 1 2 ≠ .ret ∧
      (∀ x, Instr.ldReg 1 2 ≠ .ldB x) ∧ (∀ x, Instr.ldReg 1 2 ≠ .storeRegs x) ∧ Instr.ldReg 1 2 ≠ .cls ∧
      (∀ x y n, Instr.ldReg 1 2 ≠ .drw x y n) ∧ (∀ n, Instr.ldReg 1 2 ≠ .ldI n) ∧ (∀ x, Instr.ldReg 1 2 ≠ .ldF x) ∧
      (∀ x, Instr.ldReg 1 2 ≠ .addI x) ∧ (∀ x, Instr.ldReg 1 2 ≠ .loadRegs x) ∧ (∀ x, Instr.ldReg 1 2 ≠ .ldDT x) ∧
      (∀ x, Instr.ldReg 1 2 ≠ .ldST x) ∧ ∀ x nn, Instr.ldReg 1 2 ≠ .rnd x nn :=
  ⟨_, rfl, nofun, nofun, nofun, nofun, nofun, nofun, nofun, nofun, nofun, nofun, nofun, nofun, nofun⟩

/-- O52: a register that is not the destination, VF in an instruction that writes no flag, and a flag writer that completes. -/
theorem witness_RegistersChangeOnlyAsDestinationOrFlag :
    (∃ t, exec (.ldReg 1 2) State.reset = .next t ∧ Instr.isDestination (.ldReg 1 2) 0xF = false ∧
      Instr.writesFlag (.ldReg 1 2) = false) ∧
    ∃ t, exec (.addReg 0xF 2) State.reset = .next t ∧ Instr.writesFlag (.addReg 0xF 2) = true ∧
      State.reset.cfg.vfWriteOrder = .flagLast ∧ t.result = .completed :=
  ⟨⟨_, rfl, rfl, rfl⟩, _, rfl, rfl, rfl, rfl⟩

/-- O53: a standing redraw signal. -/
theorem witness_RedrawSignalStands :
    ∃ s t : State, step s = .next t ∧ s.redrawPending = true :=
  ⟨{ State.reset with redrawPending := true }, _, rfl, rfl⟩

/-- O54: canonical memory that lists a byte, in a cycle that stores one. -/
theorem witness_MemoryStaysCanonical :
    ∃ s t : State, s.mem.wf s.cfg.font ∧ s.mem ≠ [] ∧ step s = .next t ∧ t.mem ≠ s.mem :=
  ⟨{ (withRegs [(0, 0x12)] State.reset) with i := 0x400, mem := [(0x200, 0xF0), (0x201, 0x55)] }, _, by decide +kernel,
   by decide, rfl, by decide +kernel⟩

/-- O55, O57: a state with the invariant, a live stack entry and a standing report, and its next state. -/
theorem witness_InvariantIsKeptByEveryCycle :
    ∃ s t : State, s.Inv ∧ step s = .next t ∧ s.sp = 1 ∧ s.result = .unknownInstruction 0x0000 := by
  refine ⟨{ State.reset with sp := 1, stack := State.reset.stack.set 0 0x1000, result := .unknownInstruction 0x0000 }, _,
    ⟨⟨List.Pairwise.nil, nofun⟩, (by decide : (0x200 : Word).toNat ≤ 0x10FE), ?_, ?_, nofun⟩, rfl, rfl, rfl⟩
  · intro k hk
    obtain rfl : k = 0 := Nat.lt_one_iff.mp hk
    exact ⟨rfl, by decide, by decide⟩
  · rintro w ⟨⟩
    exact ⟨rfl, by decide +kernel⟩

/-- O57: a state with the invariant, and a load that succeeds. -/
theorem witness_HostActionsKeepTheInvariant :
    State.reset.Inv ∧ ∃ (s t : State) (image : List Byte), s.initialize.load image = .ok t ∧ image ≠ [] :=
  ⟨⟨⟨List.Pairwise.nil, nofun⟩, (by decide : (0x200 : Word).toNat ≤ 0x10FE), nofun, nofun, nofun⟩, State.reset, _, [0x12, 0x00], rfl, by decide⟩

/-- O58: the first and the last font byte, the first address above it, the last cell, the last key. -/
theorem witness_InitializeGivesTheResetTable :
    0 < 80 ∧ 79 < 80 ∧ 80 ≤ 80 ∧ 2047 < 2048 ∧ 15 < 16 := by decide

/-- O59: the longest image that is accepted, the shortest that is not, and an address on each side of the image. -/
theorem witness_LoadCopiesTheImage :
    (List.replicate 3584 (0xAB : Byte)).length ≤ 3584 ∧ (List.replicate 3585 (0xAB : Byte)).length > 3584 ∧
      0x1FF < 0x200 ∧ 0x200 + ([0xAB] : List Byte).length ≤ 0x201 := by
  simp only [List.length_replicate]
  decide

/-- O60: a standing report under each policy, and an image that is refused. -/
theorem witness_HostPolicyAndKeys :
    (∃ (s : State) (w : Word), s.result = .unknownInstruction w ∧ s.cfg.unknownPolicy = .skip) ∧
    (∃ (s : State) (w : Word), s.result = .unknownInstruction w ∧ s.cfg.unknownPolicy = .halt) ∧
    ∃ (s : State) (image : List Byte) (info : Word), s.load image = .error (.imageTooLarge info) :=
  ⟨⟨{ State.reset with result := .unknownInstruction 0, cfg := { defaultConfig with unknownPolicy := .skip } }, 0, rfl, rfl⟩,
   ⟨{ State.reset with result := .unknownInstruction 0 }, 0, rfl, rfl⟩,
   State.reset, List.replicate 3585 0xAB, 3585, by
     unfold State.load imageFits imageMax
     rw [List.length_replicate]
     rfl⟩

end Sys2Proof.Tests
end

