-- ==== Sys2Proof/Proofs/WordAssembly.lean ====
section
/-! The numbers of assembled words and of a word's bytes (`30_encoding.md` R82), and the statement on word assembly (O5). -/

namespace Sys2Proof

/-! ### The number of an assembled word -/

/-- The high part of two parts put together counts in units of `2 ^ w`. -/
theorem toNat_append_eq_add {v w : Nat} (hi : BitVec v) (lo : BitVec w) :
    (hi ++ lo).toNat = hi.toNat * 2 ^ w + lo.toNat := by
  rw [BitVec.toNat_append, ← Nat.shiftLeft_add_eq_or_of_lt lo.isLt, Nat.shiftLeft_eq]

theorem toNat_formNNN (op : Nibble) (nnn : Addr12) : (formNNN op nnn).toNat = op.toNat * 4096 + nnn.toNat :=
  toNat_append_eq_add op nnn

theorem toNat_formXNN (op x : Nibble) (nn : Byte) :
    (formXNN op x nn).toNat = op.toNat * 4096 + x.toNat * 256 + nn.toNat :=
  calc (formNNN op (x ++ nn)).toNat
      = op.toNat * 4096 + (x ++ nn : Addr12).toNat := toNat_formNNN ..
    _ = op.toNat * 4096 + (x.toNat * 256 + nn.toNat) := congrArg _ (toNat_append_eq_add x nn)
    _ = op.toNat * 4096 + x.toNat * 256 + nn.toNat := (Nat.add_assoc ..).symm

theorem toNat_formXYN (op x y n : Nibble) :
    (formXYN op x y n).toNat = op.toNat * 4096 + x.toNat * 256 + y.toNat * 16 + n.toNat :=
  calc (formXNN op x (y ++ n)).toNat
      = op.toNat * 4096 + x.toNat * 256 + (y ++ n : Byte).toNat := toNat_formXNN ..
    _ = op.toNat * 4096 + x.toNat * 256 + (y.toNat * 16 + n.toNat) := congrArg _ (toNat_append_eq_add y n)
    _ = op.toNat * 4096 + x.toNat * 256 + y.toNat * 16 + n.toNat := (Nat.add_assoc ..).symm

/-! ### The bytes of a word as numbers -/

theorem bytesOfWord_eq_div_mod (w : Word) :
    bytesOfWord w = [BitVec.ofNat 8 (w.toNat / 256), BitVec.ofNat 8 (w.toNat % 256)] := by
  have high : w.extractLsb' 8 8 = BitVec.ofNat 8 (w.toNat / 256) :=
    congrArg (BitVec.ofNat 8) (Nat.shiftRight_eq_div_pow ..)
  have low : w.extractLsb' 0 8 = BitVec.ofNat 8 (w.toNat % 256) := by
    apply BitVec.eq_of_toNat_eq
    rw [BitVec.extractLsb'_toNat, BitVec.toNat_ofNat, Nat.shiftRight_zero, Nat.mod_mod]
  rw [bytesOfWord, high, low]

/-! ### The statement -/

/-- Settles O5: the numbers are `toNat_form…`, the bytes `bytesOfWord_eq_div_mod`, and the two directions of R71 and R82 the lemmas
`field…_form…` and `form…_fields` of Laws/Decode; the source's example is evaluated. -/
theorem wordsAreAssembledFromTheirFields : Obligations.WordsAreAssembledFromTheirFields :=
  ⟨toNat_formXYN, toNat_formXNN, toNat_formNNN, bytesOfWord_eq_div_mod,
    fun op x y n => ⟨fieldOp_formXYN op x y n, fieldX_formXYN op x y n, fieldY_formXYN op x y n, fieldN_formXYN op x y n⟩,
    fun op x nn => ⟨fieldOp_formXNN op x nn, fieldX_formXNN op x nn, fieldNN_formXNN op x nn⟩,
    fun op nnn => ⟨fieldOp_formNNN op nnn, fieldNNN_formNNN op nnn⟩,
    fun w => ⟨formXYN_fields w, formXNN_fields w, formNNN_fields w⟩,
    by decide, by decide⟩

end Sys2Proof
end

