-- ==== Sys2Proof/Proofs/RegisterOps.lean ====
section
/-! Instructions that write one register and complete (`41_register_ops.md` R120), and the statement on LD Vx, nn (O24). -/

namespace Sys2Proof.Machine

/-! ### A completing register write -/

/-- A register write and the end of the instruction leave alone all but the registers, `pc` and the outcome. -/
theorem sameButRegs_endAt_setV (s : State) (x : Nibble) (b : Byte) (next : Word) :
    sameButRegs s ((s.setV x b).endAt next) :=
  have hstack : sameStack s ((s.setV x b).endAt next) := ⟨rfl, rfl⟩
  have htimers : sameTimers s ((s.setV x b).endAt next) := ⟨rfl, rfl⟩
  have hdisplay : sameDisplay s ((s.setV x b).endAt next) := ⟨rfl, rfl⟩
  have hcontrol : sameControl s ((s.setV x b).endAt next) := ⟨rfl, rfl, rfl⟩
  ⟨rfl, fun _ => rfl, hstack, htimers, hdisplay, hcontrol, rfl⟩

/-- An instruction that writes `b` to Vx and completes: Vx is `b`, `pc` is at the next instruction, all else is unchanged. -/
theorem completeNext_setV (s : State) (x : Nibble) (b : Byte) :
    ∃ t, completeNext (s.setV x b) = .next t ∧ t.getV x = b ∧ t.pc = s.pc + 2 ∧ t.result = .completed ∧
      (∀ r, r ≠ x → t.getV r = s.getV r) ∧ sameButRegs s t := by
  refine ⟨(s.setV x b).endAt (s.pc + 2), completeNext_eq _, ?_, rfl, rfl, fun r hr => ?_, sameButRegs_endAt_setV ..⟩
  · rw [State.getV_endAt, State.getV_setV, if_pos rfl]
  · rw [State.getV_endAt, State.getV_setV, if_neg hr]

/-! ### LD Vx, nn -/

theorem decode_of_fieldOp_six {w : Word} (h : fieldOp w = 0x6) : decode w = .ok (.ldImm (fieldX w) (fieldNN w)) := by
  unfold decode
  rw [h]
  rfl

theorem exec_ldImm (x : Nibble) (nn : Byte) (s : State) : exec (.ldImm x nn) s = completeNext (s.setV x nn) := rfl

end Sys2Proof.Machine

namespace Sys2Proof

open Machine

/-- Settles O24: the row's mask fixes `op` (`fields_of_maskOp`), which selects LD Vx, nn; its execution is a register write that
completes (`completeNext_setV`); the example word is one of the row. -/
theorem ldImmLoadsTheByte : Obligations.LdImmLoadsTheByte := by
  have hdecode (w : Word) (h : w &&& 0xF000 = 0x6000) : decode w = .ok (.ldImm (fieldX w) (fieldNN w)) :=
    decode_of_fieldOp_six (fields_of_maskOp h)
  refine ⟨hdecode, fun x nn s => ?_, hdecode 0x6105 rfl⟩
  rw [exec_ldImm]
  exact completeNext_setV s x nn

end Sys2Proof
end

