-- ==== Sys2Proof/Proofs/StepDriver.lean ====
section
/-! The cycle of a core that can fetch, by what the word at `pc` decodes to (`47_step_driver.md` R190), the two ends of a cycle that is
not completed (R193), and the statement on them (O10). -/

namespace Sys2Proof.Machine

/-! ### A cycle that fetches -/

theorem step_of_fetchable {s : State} (hf : s.fetchable = true) :
    step s = match decode (fetchWord s) with
      | .ok i => finishCycle (exec i s)
      | .error _ => .next (s.reportUnknown (fetchWord s)) := by
  obtain ⟨hrun, hpc⟩ := fetchable_iff.mp hf
  unfold step
  rw [fetchStage_running hrun]
  unfold fetchRunning
  rw [hpc]
  cases decode (fetchWord s) with
  | ok i => rfl
  | error e => rfl

theorem step_of_decode_ok {s : State} {i : Instr} (hf : s.fetchable = true) (hd : decode (fetchWord s) = .ok i) :
    step s = finishCycle (exec i s) := by
  rw [step_of_fetchable hf, hd]

/-! ### The two ends that are not completed -/

theorem step_of_stuckOnUnknown {s : State} (h : s.stuckOnUnknown) : step s = .next (s.reportUnknown (fetchWord s)) := by
  obtain ⟨hf, hd⟩ := h
  rw [step_of_fetchable hf, hd]

/-- The report leaves `pc`, `status` and memory, so the word is fetched again, and is unknown again. -/
theorem stuckOnUnknown_reportUnknown {s : State} (w : Word) (h : s.stuckOnUnknown) : (s.reportUnknown w).stuckOnUnknown := h

theorem exec_ldKey_of_none_pressed (x : Nibble) {s : State} (h : ∀ k, s.pressed k = false) :
    exec (.ldKey x) s = waitForKey s := by
  show execLdKey x s = waitForKey s
  unfold execLdKey
  rw [firstPressed_none.mpr h]

theorem step_of_waiting {s : State} (h : s.waiting) : step s = .next s.keyWait := by
  obtain ⟨hf, ⟨x, hd⟩, hkeys⟩ := h
  rw [step_of_decode_ok hf hd, exec_ldKey_of_none_pressed x hkeys, finishCycle_waitForKey]

/-- The wait leaves `pc`, `status`, memory and the keys, so the same instruction waits again. -/
theorem waiting_keyWait {s : State} (h : s.waiting) : s.keyWait.waiting := h

end Sys2Proof.Machine

namespace Sys2Proof

open Machine

/-- Settles O10: a core stuck on an unknown word reports it (`step_of_stuckOnUnknown`) and is still stuck on it
(`stuckOnUnknown_reportUnknown`); a core that waits for a key waits (`step_of_waiting`) and is still waiting (`waiting_keyWait`). So in both
the next cycle does the same, and the outcome it writes is the one that stands. -/
theorem notCompletedChangesNothing : Obligations.NotCompletedChangesNothing := by
  refine ⟨?unknown, ?wait⟩
  case unknown =>
    rintro s hf w rfl hd
    have hstuck : s.stuckOnUnknown := ⟨hf, hd⟩
    exact ⟨step_of_stuckOnUnknown hstuck, step_of_stuckOnUnknown (stuckOnUnknown_reportUnknown _ hstuck)⟩
  case wait =>
    intro s x hf hd hkeys
    have hwait : s.waiting := ⟨hf, ⟨x, hd⟩, hkeys⟩
    exact ⟨step_of_waiting hwait, rfl, step_of_waiting (waiting_keyWait hwait)⟩

end Sys2Proof
end

