-- ==== Sys2Proof/Proofs/ImageLoad.lean ====
section
/-! What `load` answers, by the length of the image, and where the bytes of a loaded image are (`70_reset_and_hazards.md` R232), and the
statement on it (O59). -/

namespace Sys2Proof.Machine

theorem imageFits_iff {image : List Byte} : imageFits image = true ↔ image.length ≤ 3584 :=
  decide_eq_true_iff

theorem State.load_of_fits {image : List Byte} (s : State) (h : image.length ≤ 3584) :
    s.load image = .ok (storeBytes image loadBase s) :=
  if_pos (imageFits_iff.mpr h)

theorem State.load_of_too_large {image : List Byte} (s : State) (h : image.length > 3584) :
    s.load image = .error (.imageTooLarge (BitVec.ofNat 16 (min image.length 0xFFFF))) :=
  if_neg fun hfits => absurd (imageFits_iff.mp hfits) (by omega)

/-- The longest image ends with memory: 0x200 + 3584 is 4096. -/
theorem loadBase_add_length_le {image : List Byte} (h : image.length ≤ 3584) : loadBase + image.length ≤ memSize := by
  unfold loadBase memSize
  omega

/-! ### What `storeBytes` leaves at an address of the stored bytes, and at every other one -/

theorem State.readByte_storeBytes_inside {bs : List Byte} {a k : Nat} (s : State) (hfit : a + bs.length ≤ memSize) (hk : k < bs.length) :
    some ((storeBytes bs a s).readByte (a + k)) = bs[k]? := by
  rw [State.readByte_storeBytes bs a s hfit, if_pos (Nat.le_add_right a k), Nat.add_sub_cancel_left, List.getD_eq_getElem _ _ hk,
    List.getElem?_eq_getElem hk]

theorem State.readByte_storeBytes_outside {bs : List Byte} {a b : Nat} (s : State) (hfit : a + bs.length ≤ memSize)
    (hb : b < a ∨ a + bs.length ≤ b) : (storeBytes bs a s).readByte b = s.readByte b := by
  rw [State.readByte_storeBytes bs a s hfit]
  rcases hb with hbelow | habove
  · exact if_neg (Nat.not_le.mpr hbelow)
  · rw [if_pos (by omega), List.getD_eq_default _ _ (by omega)]

end Sys2Proof.Machine

namespace Sys2Proof

open Machine

/-- Settles O59: a longer image is refused (`State.load_of_too_large`); one that fits is stored from 0x200 upward (`State.load_of_fits`), so
its bytes are there, every address outside reads as before, and nothing but memory changes (`storeBytes_frame`). -/
theorem loadCopiesTheImage : Obligations.LoadCopiesTheImage := by
  intro image s
  refine ⟨fun hlong => ⟨_, s.load_of_too_large hlong⟩, fun hfits => ⟨_, s.load_of_fits hfits, ?bytes, ?others, ?frame⟩⟩
  case bytes => exact fun k hk => s.readByte_storeBytes_inside (loadBase_add_length_le hfits) hk
  case others => exact fun a ha => s.readByte_storeBytes_outside (loadBase_add_length_le hfits) ha
  case frame =>
    rw [storeBytes_frame]
    simp [sameRegs, sameMachine, sameStack, sameTimers, sameDisplay, sameControl, State.getV]

end Sys2Proof
end

