-- ==== Sys2Proof/Proofs/Encoding.lean ====
section
/-! The decoder by the rows of the opcode map (`30_encoding.md` R74, R76), and the statements on decode and encode (O1, O2, O3, O4, O6). -/

namespace Sys2Proof

/-! ### A word with a fixed field is put together from the other ones -/

theorem formNNN_of_fieldOp {w : Word} {op : Nibble} (hop : fieldOp w = op) : formNNN op (fieldNNN w) = w :=
  hop ▸ formNNN_fields w

theorem formXNN_of_fieldOp {w : Word} {op : Nibble} (hop : fieldOp w = op) : formXNN op (fieldX w) (fieldNN w) = w :=
  hop ▸ formXNN_fields w

theorem formXNN_of_fieldNN {w : Word} {op : Nibble} {nn : Byte} (hop : fieldOp w = op) (hnn : fieldNN w = nn) :
    formXNN op (fieldX w) nn = w :=
  hnn ▸ formXNN_of_fieldOp hop

theorem formXYN_of_fieldOp {w : Word} {op : Nibble} (hop : fieldOp w = op) :
    formXYN op (fieldX w) (fieldY w) (fieldN w) = w :=
  hop ▸ formXYN_fields w

theorem formXYN_of_fieldN {w : Word} {op n : Nibble} (hop : fieldOp w = op) (hn : fieldN w = n) :
    formXYN op (fieldX w) (fieldY w) n = w :=
  hn ▸ formXYN_of_fieldOp hop

/-! ### From a row of the opcode map to the instruction -/

/-- The instruction of the same row as `i` whose operands are the fields of `w` (R71). -/
def Instr.readFrom (w : Word) : Instr → Instr
  | .jp _ => .jp (fieldNNN w)
  | .call _ => .call (fieldNNN w)
  | .ret => .ret
  | .seImm _ _ => .seImm (fieldX w) (fieldNN w)
  | .sneImm _ _ => .sneImm (fieldX w) (fieldNN w)
  | .seReg _ _ => .seReg (fieldX w) (fieldY w)
  | .sneReg _ _ => .sneReg (fieldX w) (fieldY w)
  | .jpV0 _ => .jpV0 (fieldNNN w)
  | .ldImm _ _ => .ldImm (fieldX w) (fieldNN w)
  | .addImm _ _ => .addImm (fieldX w) (fieldNN w)
  | .ldReg _ _ => .ldReg (fieldX w) (fieldY w)
  | .or _ _ => .or (fieldX w) (fieldY w)
  | .and _ _ => .and (fieldX w) (fieldY w)
  | .xor _ _ => .xor (fieldX w) (fieldY w)
  | .addReg _ _ => .addReg (fieldX w) (fieldY w)
  | .sub _ _ => .sub (fieldX w) (fieldY w)
  | .subn _ _ => .subn (fieldX w) (fieldY w)
  | .shr _ _ => .shr (fieldX w) (fieldY w)
  | .shl _ _ => .shl (fieldX w) (fieldY w)
  | .ldI _ => .ldI (fieldNNN w)
  | .ldF _ => .ldF (fieldX w)
  | .addI _ => .addI (fieldX w)
  | .ldB _ => .ldB (fieldX w)
  | .storeRegs _ => .storeRegs (fieldX w)
  | .loadRegs _ => .loadRegs (fieldX w)
  | .rnd _ _ => .rnd (fieldX w) (fieldNN w)
  | .skp _ => .skp (fieldX w)
  | .sknp _ => .sknp (fieldX w)
  | .ldKey _ => .ldKey (fieldX w)
  | .ldFromDT _ => .ldFromDT (fieldX w)
  | .ldDT _ => .ldDT (fieldX w)
  | .ldST _ => .ldST (fieldX w)
  | .cls => .cls
  | .drw _ _ _ => .drw (fieldX w) (fieldY w) (fieldN w)

theorem Instr.row_readFrom (w : Word) (i : Instr) : (i.readFrom w).row = i.row := by
  cases i <;> rfl

/-- The decoder branches on fields that an assembled word gives back as they were put in. -/
theorem decode_encode (i : Instr) : decode (encode i) = .ok i := by
  cases i with
  | ret | cls => rfl
  | jp | call | ldI | jpV0 => simp [encode, decode]
  | seImm | sneImm | ldImm | addImm | rnd => simp [encode, decode]
  | seReg | sneReg | drw => simp [encode, decode]
  | ldReg | or | and | xor | addReg | sub | subn | shr | shl => simp [encode, decode, decodeOp8]
  | skp | sknp => simp [encode, decode, decodeOpE]
  | ldF | addI | ldB | storeRegs | loadRegs | ldKey | ldFromDT | ldDT | ldST => simp [encode, decode, decodeOpF]

/-- The word of an instruction selects the instruction's row: the law of Laws/PerInstr, for all of them. -/
theorem encode_selects_row (i : Instr) : encode i &&& i.row.mask = i.row.value := by
  have h : Laws.EncodesItsRow.Statement i := by
    cases i with
    | jp nnn => exact Laws.EncodesItsRow.jp nnn
    | call nnn => exact Laws.EncodesItsRow.call nnn
    | ret => exact Laws.EncodesItsRow.ret
    | seImm x nn => exact Laws.EncodesItsRow.seImm x nn
    | sneImm x nn => exact Laws.EncodesItsRow.sneImm x nn
    | seReg x y => exact Laws.EncodesItsRow.seReg x y
    | sneReg x y => exact Laws.EncodesItsRow.sneReg x y
    | jpV0 nnn => exact Laws.EncodesItsRow.jpV0 nnn
    | ldImm x nn => exact Laws.EncodesItsRow.ldImm x nn
    | addImm x nn => exact Laws.EncodesItsRow.addImm x nn
    | ldReg x y => exact Laws.EncodesItsRow.ldReg x y
    | or x y => exact Laws.EncodesItsRow.or x y
    | and x y => exact Laws.EncodesItsRow.and x y
    | xor x y => exact Laws.EncodesItsRow.xor x y
    | addReg x y => exact Laws.EncodesItsRow.addReg x y
    | sub x y => exact Laws.EncodesItsRow.sub x y
    | subn x y => exact Laws.EncodesItsRow.subn x y
    | shr x y => exact Laws.EncodesItsRow.shr x y
    | shl x y => exact Laws.EncodesItsRow.shl x y
    | ldI nnn => exact Laws.EncodesItsRow.ldI nnn
    | ldF x => exact Laws.EncodesItsRow.ldF x
    | addI x => exact Laws.EncodesItsRow.addI x
    | ldB x => exact Laws.EncodesItsRow.ldB x
    | storeRegs x => exact Laws.EncodesItsRow.storeRegs x
    | loadRegs x => exact Laws.EncodesItsRow.loadRegs x
    | rnd x nn => exact Laws.EncodesItsRow.rnd x nn
    | skp x => exact Laws.EncodesItsRow.skp x
    | sknp x => exact Laws.EncodesItsRow.sknp x
    | ldKey x => exact Laws.EncodesItsRow.ldKey x
    | ldFromDT x => exact Laws.EncodesItsRow.ldFromDT x
    | ldDT x => exact Laws.EncodesItsRow.ldDT x
    | ldST x => exact Laws.EncodesItsRow.ldST x
    | cls => exact Laws.EncodesItsRow.cls
    | drw x y n => exact Laws.EncodesItsRow.drw x y n
  exact eq_of_beq h

/-- A mask of all ones fixes the word. -/
theorem eq_of_maskAll {w v : Word} (h : w &&& 0xFFFF = v) : w = v :=
  BitVec.and_allOnes.symm.trans h

/-- A word that selects a row is the word of the instruction of that row with the word's fields: what the mask leaves out are the
operands. -/
theorem encode_readFrom (i : Instr) {w : Word} (h : w &&& i.row.mask = i.row.value) : encode (i.readFrom w) = w := by
  cases i with simp only [Instr.row] at h
  | ret | cls => exact (eq_of_maskAll h).symm
  | jp | call | ldI | jpV0 => exact formNNN_of_fieldOp (fields_of_maskOp h)
  | seImm | sneImm | ldImm | addImm | rnd => exact formXNN_of_fieldOp (fields_of_maskOp h)
  | drw => exact formXYN_of_fieldOp (fields_of_maskOp h)
  | seReg | sneReg | ldReg | or | and | xor | addReg | sub | subn | shr | shl =>
    obtain ⟨hop, hn⟩ := fields_of_maskOpN h
    exact formXYN_of_fieldN hop hn
  | ldF | addI | ldB | storeRegs | loadRegs | skp | sknp | ldKey | ldFromDT | ldDT | ldST =>
    obtain ⟨hop, hnn⟩ := fields_of_maskOpNN h
    exact formXNN_of_fieldNN hop hnn

theorem decode_of_selects (i : Instr) {w : Word} (h : w &&& i.row.mask = i.row.value) : decode w = .ok (i.readFrom w) := by
  have hd := decode_encode (i.readFrom w)
  rwa [encode_readFrom i h] at hd

/-! ### From a decoded word back to the instruction's word -/

/-- The last arm of the decoder is `op` F: the fifteen others are taken before it. -/
theorem nibble_eq_F {n : Nibble} (h : n ∉ [0x0, 0x1, 0x2, 0x3, 0x4, 0x5, 0x6, 0x7, 0x8, 0x9, 0xA, 0xB, 0xC, 0xD, 0xE]) :
    n = 0xF := by
  revert n
  decide

theorem encode_of_decodeOp0 {w : Word} {i : Instr} (h : decodeOp0 w = .ok i) : encode i = w := by
  unfold decodeOp0 at h
  split at h
  · cases h
    exact Eq.symm ‹_›
  · split at h <;> cases h
    exact Eq.symm ‹_›

theorem encode_of_decodeOp8 {w : Word} {i : Instr} (hop : fieldOp w = 0x8) (h : decodeOp8 w = .ok i) : encode i = w := by
  unfold decodeOp8 at h
  split at h <;> cases h <;> exact formXYN_of_fieldN hop ‹_›

theorem encode_of_decodeOpE {w : Word} {i : Instr} (hop : fieldOp w = 0xE) (h : decodeOpE w = .ok i) : encode i = w := by
  unfold decodeOpE at h
  split at h <;> cases h <;> exact formXNN_of_fieldNN hop ‹_›

theorem encode_of_decodeOpF {w : Word} {i : Instr} (hop : fieldOp w = 0xF) (h : decodeOpF w = .ok i) : encode i = w := by
  unfold decodeOpF at h
  split at h <;> cases h <;> exact formXNN_of_fieldNN hop ‹_›

theorem encode_of_decode {w : Word} {i : Instr} (h : decode w = .ok i) : encode i = w := by
  unfold decode at h
  split at h
  case h_1 => exact encode_of_decodeOp0 h
  case h_9 hop => exact encode_of_decodeOp8 hop h
  case h_15 hop => exact encode_of_decodeOpE hop h
  case h_16 => exact encode_of_decodeOpF (nibble_eq_F (by simp_all)) h
  case h_6 hop | h_10 hop =>
    split at h <;> cases h
    exact formXYN_of_fieldN hop ‹_›
  case h_2 hop | h_3 hop | h_11 hop | h_12 hop =>
    cases h
    exact formNNN_of_fieldOp hop
  case h_4 hop | h_5 hop | h_7 hop | h_8 hop | h_13 hop =>
    cases h
    exact formXNN_of_fieldOp hop
  case h_14 hop =>
    cases h
    exact formXYN_of_fieldOp hop

theorem selects_of_decode {w : Word} {i : Instr} (h : decode w = .ok i) : w &&& i.row.mask = i.row.value :=
  encode_of_decode h ▸ encode_selects_row i

/-! ### The words that decode to no instruction -/

theorem decodeOp0_error_iff {w : Word} :
    decodeOp0 w = .error (.unknownInstruction w) ↔ w ≠ 0x00E0 ∧ w ≠ 0x00EE := by
  unfold decodeOp0
  by_cases hcls : w = 0x00E0#16 <;> by_cases hret : w = 0x00EE#16 <;> simp [hcls, hret]

/-- The values of `n` that `op` 8 does not name are the seven of R77. -/
theorem unnamed_in_op8_iff {n : Nibble} :
    n ∈ [0x8, 0x9, 0xA, 0xB, 0xC, 0xD, 0xF] ↔ n ∉ [0x0, 0x1, 0x2, 0x3, 0x4, 0x5, 0x6, 0x7, 0xE] := by
  revert n
  decide

theorem decodeOp8_error_iff {w : Word} :
    decodeOp8 w = .error (.unknownInstruction w) ↔ fieldN w ∈ [0x8, 0x9, 0xA, 0xB, 0xC, 0xD, 0xF] := by
  rw [unnamed_in_op8_iff]
  unfold decodeOp8
  split <;> simp_all

theorem decodeOpE_error_iff {w : Word} :
    decodeOpE w = .error (.unknownInstruction w) ↔ fieldNN w ≠ 0x9E ∧ fieldNN w ≠ 0xA1 := by
  unfold decodeOpE
  split <;> simp_all

theorem decodeOpF_error_iff {w : Word} :
    decodeOpF w = .error (.unknownInstruction w) ↔
      fieldNN w ∉ [0x07, 0x0A, 0x15, 0x18, 0x1E, 0x29, 0x33, 0x55, 0x65] := by
  unfold decodeOpF
  split <;> simp_all

theorem decodeOp0_error {w : Word} {e : DecodeError} (h : decodeOp0 w = .error e) : e = .unknownInstruction w := by
  unfold decodeOp0 at h
  split at h
  · cases h
  · split at h <;> cases h
    rfl

theorem decodeOp8_error {w : Word} {e : DecodeError} (h : decodeOp8 w = .error e) : e = .unknownInstruction w := by
  unfold decodeOp8 at h
  split at h <;> cases h
  rfl

theorem decodeOpE_error {w : Word} {e : DecodeError} (h : decodeOpE w = .error e) : e = .unknownInstruction w := by
  unfold decodeOpE at h
  split at h <;> cases h
  rfl

theorem decodeOpF_error {w : Word} {e : DecodeError} (h : decodeOpF w = .error e) : e = .unknownInstruction w := by
  unfold decodeOpF at h
  split at h <;> cases h
  rfl

/-- The decoder's one refusal of a whole word names that word (R74). -/
theorem decode_error {w : Word} {e : DecodeError} (h : decode w = .error e) : e = .unknownInstruction w := by
  unfold decode at h
  split at h
  case h_1 => exact decodeOp0_error h
  case h_9 => exact decodeOp8_error h
  case h_15 => exact decodeOpE_error h
  case h_16 => exact decodeOpF_error h
  case h_6 | h_10 =>
    split at h <;> cases h
    rfl
  all_goals cases h

/-! ### The statements -/

/-- Settles O1: `decode_encode`, and for bytes that the two bytes of a word are that word again. -/
theorem decodeOfEncodeIsTheInstruction : Obligations.DecodeOfEncodeIsTheInstruction := by
  refine ⟨decode_encode, fun i rest => ?_⟩
  show decodeBytes ((encode i).extractLsb' 8 8 :: (encode i).extractLsb' 0 8 :: rest) = .ok (i, rest)
  simp only [decodeBytes, wordOfBytes_bytesOfWord, decode_encode]

/-- Settles O2: each arm of the decoder reads the fields from which the word is put together (`encode_of_decode`). -/
theorem encodeOfDecodeIsTheWord : Obligations.EncodeOfDecodeIsTheWord :=
  fun _ _ => encode_of_decode

/-- Settles O3: a decoded word is the word of its instruction, so it selects its row (`selects_of_decode`); a word that selects a row
decodes to an instruction of it (`decode_of_selects`), so it selects no second row; and the one refusal is the unknown word. -/
theorem decodeFollowsTheOpcodeMap : Obligations.DecodeFollowsTheOpcodeMap := by
  refine ⟨fun _ _ => selects_of_decode, fun w i h => ⟨_, decode_of_selects i h, i.row_readFrom w⟩, ?noOverlap, ?noRow⟩
  case noOverlap =>
    intro w i j hi hj
    have hsame : i.readFrom w = j.readFrom w := Except.ok.inj ((decode_of_selects i hi).symm.trans (decode_of_selects j hj))
    rw [← i.row_readFrom w, hsame, j.row_readFrom]
  case noRow =>
    intro w hnone
    cases hd : decode w with
    | ok i => exact absurd (selects_of_decode hd) (hnone i)
    | error e => rw [decode_error hd]

/-- Settles O4: the decoder branches on `op`; in each branch the words without an instruction are those of the list. -/
theorem unknownWordsAreTheListedOnes : Obligations.UnknownWordsAreTheListedOnes := by
  intro w
  unfold decode
  split
  case h_1 hop => simp [hop, decodeOp0_error_iff]
  case h_9 hop => simp [hop, decodeOp8_error_iff]
  case h_15 hop => simp [hop, decodeOpE_error_iff]
  case h_16 =>
    have hop : fieldOp w = 0xF := nibble_eq_F (by simp_all)
    simp [hop, decodeOpF_error_iff]
  all_goals
    rename_i hop
    simp [hop]

/-- Settles O6: each word is put together from its row's `op`, operands and sub-opcode, so it is the word of its instruction. -/
theorem sampleWordsDecode : Obligations.SampleWordsDecode :=
  ⟨decode_encode (.jp 0x234), decode_encode .ret, decode_encode (.ldImm 0x1 0x05), decode_encode (.addReg 0x1 0x2),
    decode_encode (.storeRegs 0x1), decode_encode (.rnd 0x3 0x0F), decode_encode (.skp 0x1), decode_encode (.ldFromDT 0x3),
    decode_encode (.drw 0x1 0x2 0x5)⟩

end Sys2Proof
end

