-- ==== Sys2Proof/Proofs/Effects.lean ====
section
/-! Every instruction as a guard, the writes it makes when the guard holds, and the `pc` it goes to; what an instruction and a cycle can
end in, by that; and which element an instruction may write (`10_state.md` R41, `47_step_driver.md` R190). -/

namespace Sys2Proof.Machine

/-! ### Guard, effect and target of an instruction -/

/-- The instruction completes from this state: it raises no fault and does not wait. -/
def ready : Instr → State → Prop
  | .call _, s => s.sp.val < 16
  | .ret, s => 0 < s.sp.val
  | .ldB _, s => s.i.toNat + 3 ≤ 0x1000
  | .storeRegs x, s => s.i.toNat + (x.toNat + 1) ≤ 0x1000
  | .loadRegs x, s => s.i.toNat + (x.toNat + 1) ≤ 0x1000
  | .skp x, s => (s.getV x).toNat ≤ 15
  | .sknp x, s => (s.getV x).toNat ≤ 15
  | .ldKey _, s => ∃ k, firstPressed s = some k
  | .drw x y n, s => drawFits s x y n
  | _, _ => True

/-- The state with the instruction's writes, all but `pc` and the outcome. -/
def effect : Instr → State → State
  | .call _, s => if h : s.sp.val < 16 then s.push s.nextPc h else s
  | .ret, s => s.pop
  | .ldImm x nn, s => s.setV x nn
  | .addImm x nn, s => s.setV x (s.getV x + nn)
  | .ldReg x y, s => s.setV x (s.getV y)
  | .or x y, s => s.setV x (s.getV x ||| s.getV y)
  | .and x y, s => s.setV x (s.getV x &&& s.getV y)
  | .xor x y, s => s.setV x (s.getV x ^^^ s.getV y)
  | .addReg x y, s => writeWithFlag (carryFlag (s.getV x) (s.getV y)) (fun t => t.setV x (t.getV x + t.getV y)) s
  | .sub x y, s => writeWithFlag (noBorrowFlag (s.getV x) (s.getV y)) (fun t => t.setV x (t.getV x - t.getV y)) s
  | .subn x y, s => writeWithFlag (noBorrowFlag (s.getV y) (s.getV x)) (fun t => t.setV x (t.getV y - t.getV x)) s
  | .shr x _, s => writeWithFlag (lowBitFlag (s.getV x)) (fun t => t.setV x (t.getV x >>> 1)) s
  | .shl x _, s => writeWithFlag (highBitFlag (s.getV x)) (fun t => t.setV x (t.getV x <<< 1)) s
  | .ldI nnn, s => s.setI (zextAddr nnn)
  | .ldF x, s => s.setI (glyphAddr (s.getV x))
  | .addI x, s => writeWithFlag (addressFlag s.i (s.getV x)) (fun t => t.setI (t.i + zextByte (t.getV x))) s
  | .ldB x, s => storeBytes (decimalDigits (s.getV x)) s.i.toNat s
  | .storeRegs x, s => advanceI x (storeBytes (regsUpTo x s) s.i.toNat s)
  | .loadRegs x, s => advanceI x (loadRegsFrom s.i.toNat (x.toNat + 1) s)
  | .rnd x nn, s => s.afterDraw.setV x (s.drawnByte &&& nn)
  | .ldKey x, s =>
    match firstPressed s with
    | some k => s.setV x (k.setWidth 8)
    | none => s
  | .ldFromDT x, s => s.setV x s.dt
  | .ldDT x, s => s.setDT (s.getV x)
  | .ldST x, s => s.setST (s.getV x)
  | .cls, s => s.setDisplay 0
  | .drw x y n, s => drawSprite (s.getV x).toNat (s.getV y).toNat n.toNat s
  | .jp _, s | .jpV0 _, s | .seImm _ _, s | .sneImm _ _, s | .seReg _ _, s | .sneReg _ _, s | .skp _, s | .sknp _, s => s

/-- Where the completed instruction leaves `pc`. -/
def target : Instr → State → Word
  | .jp nnn, _ => zextAddr nnn
  | .call nnn, _ => zextAddr nnn
  | .ret, s => s.stackAt (s.sp.val - 1)
  | .seImm x nn, s => if s.getV x == nn then s.skipPc else s.nextPc
  | .sneImm x nn, s => if s.getV x != nn then s.skipPc else s.nextPc
  | .seReg x y, s => if s.getV x == s.getV y then s.skipPc else s.nextPc
  | .sneReg x y, s => if s.getV x != s.getV y then s.skipPc else s.nextPc
  | .jpV0 nnn, s => zextAddr nnn + zextByte (s.getV 0)
  | .skp x, s => if s.pressed ((s.getV x).setWidth 4) then s.skipPc else s.nextPc
  | .sknp x, s => if !s.pressed ((s.getV x).setWidth 4) then s.skipPc else s.nextPc
  | _, s => s.nextPc

/-! ### Operands as numbers -/

@[simp] theorem toNat_zextAddr (nnn : Addr12) : (zextAddr nnn).toNat = nnn.toNat :=
  BitVec.toNat_setWidth_of_le (by decide)

@[simp] theorem toNat_zextByte (b : Byte) : (zextByte b).toNat = b.toNat :=
  BitVec.toNat_setWidth_of_le (by decide)

/-! ### Operations that leave `pc` -/

theorem completeNext_of_pc_eq {s u : State} (h : u.pc = s.pc) : completeNext u = complete u s.nextPc := by
  unfold completeNext State.nextPc
  rw [h]

theorem writeWithFlag_pc {write : State → State} (hw : ∀ t, (write t).pc = t.pc) (flag : Bool) (s : State) :
    (writeWithFlag flag write s).pc = s.pc := by
  rcases writeWithFlag_cases flag write s with ⟨-, e⟩ | ⟨-, e⟩ <;> rw [e]
  · exact hw s
  · exact hw _

theorem storeBytes_pc (bs : List Byte) (a : Nat) (s : State) : (storeBytes bs a s).pc = s.pc := by
  rw [storeBytes_frame]

theorem loadRegsFrom_pc (a n : Nat) (s : State) : (loadRegsFrom a n s).pc = s.pc := by
  rw [loadRegsFrom_frame]

/-! ### An instruction completes exactly as its guard says -/

/-- The edge check passes: clip and wrap have none, an empty sprite has no rectangle (R181). -/
theorem withCells_ok {vx vy n : Nat} {s : State} (h : s.cfg.drawEdge = .raw → n = 0 ∨ (vy + n - 1) * 64 + vx + 7 ≤ 2047)
    (body : Host.Outcome State Fault Refusal) : withCells vx vy n s body = body := by
  rcases withCells_cases vx vy n s body with ⟨hraw, hn, hpast, -⟩ | ⟨-, e⟩
  · have := h hraw
    omega
  · exact e

/-- The sprite's box fits under `raw`, the one policy that has an edge fault (R181). -/
def boxFits (s : State) (vx vy n : Nat) : Prop :=
  s.cfg.drawEdge = .raw → n = 0 ∨ (vy + n - 1) * 64 + vx + 7 ≤ 2047

theorem boxFits_of_drawFits {s : State} {x y n : Nibble} (h : drawFits s x y n) :
    boxFits s (s.getV x).toNat (s.getV y).toNat n.toNat :=
  fun hraw => h.imp_right fun hfit => hfit.2 hraw

/-- A draw whose bytes lie in memory and whose box fits completes. -/
theorem exec_drw_ok {x y n : Nibble} {s : State} (hrange : n.toNat = 0 ∨ s.i.toNat + n.toNat ≤ 0x1000)
    (hbox : boxFits s (s.getV x).toNat (s.getV y).toNat n.toNat) :
    exec (.drw x y n) s = completeNext (drawSprite (s.getV x).toNat (s.getV y).toNat n.toNat s) :=
  (withDataRange_ok hrange _).trans (withCells_ok hbox _)

theorem exec_drw_of_fits {x y n : Nibble} {s : State} (h : drawFits s x y n) :
    exec (.drw x y n) s = completeNext (drawSprite (s.getV x).toNat (s.getV y).toNat n.toNat s) :=
  exec_drw_ok (h.imp_right And.left) (boxFits_of_drawFits h)

theorem exec_of_ready {i : Instr} {s : State} (h : ready i s) : exec i s = complete (effect i s) (target i s) := by
  cases i with
  | jp | jpV0 | seImm | sneImm | seReg | sneReg | ldImm | addImm | ldReg | or | and | xor | ldI | ldF | rnd | ldFromDT | ldDT | ldST
  | cls => rfl
  | call nnn =>
    have hsp : s.sp.val < 16 := h
    simp only [exec, execCall, effect, target, dif_pos hsp]
  | ret =>
    have hsp : ¬ s.sp.val = 0 := Nat.ne_of_gt h
    simp only [exec, execRet, effect, target, if_neg hsp]
  | addReg | sub | subn | shr | shl | addI => exact completeNext_of_pc_eq (writeWithFlag_pc (by intro t; rfl) _ s)
  | ldB x => exact (withDataRange_ok (.inr h) _).trans (completeNext_of_pc_eq (storeBytes_pc ..))
  | storeRegs x => exact (withDataRange_ok (.inr h) _).trans (completeNext_of_pc_eq (storeBytes_pc ..))
  | loadRegs x => exact (withDataRange_ok (.inr h) _).trans (completeNext_of_pc_eq (loadRegsFrom_pc ..))
  | skp x => exact withKey_ok h s _
  | sknp x => exact withKey_ok h s _
  | ldKey x =>
    obtain ⟨k, hk⟩ := h
    simp only [exec, execLdKey, effect, target, hk]
    rfl
  | drw x y n => exact exec_drw_of_fits h

theorem exec_drw_of_not_fits {x y n : Nibble} {s : State} (h : ¬ drawFits s x y n) :
    ∃ c info, exec (.drw x y n) s = raiseFault c info s := by
  rcases withDataRange_cases n.toNat s (withCells (s.getV x).toNat (s.getV y).toNat n.toNat s
      (completeNext (drawSprite (s.getV x).toNat (s.getV y).toNat n.toNat s))) with ⟨-, -, e⟩ | ⟨hrange, e⟩
  · exact ⟨_, _, e⟩
  · rcases withCells_cases (s.getV x).toNat (s.getV y).toNat n.toNat s
        (completeNext (drawSprite (s.getV x).toNat (s.getV y).toNat n.toNat s)) with ⟨-, -, -, e'⟩ | ⟨hedge, -⟩
    · exact ⟨_, _, e.trans e'⟩
    · refine absurd ?_ h
      by_cases hn : n.toNat = 0
      · exact .inl hn
      · exact .inr ⟨hrange.resolve_left hn, fun hraw => (hedge hraw).resolve_left hn⟩

theorem exec_of_not_ready {i : Instr} {s : State} (h : ¬ ready i s) :
    exec i s = waitForKey s ∨ ∃ c info, exec i s = raiseFault c info s := by
  cases i with
  | jp | jpV0 | seImm | sneImm | seReg | sneReg | ldImm | addImm | ldReg | or | and | xor | addReg | sub | subn | shr | shl | ldI | ldF
  | addI | rnd | ldFromDT | ldDT | ldST | cls => exact absurd trivial h
  | call nnn => exact .inr ⟨_, _, dif_neg h⟩
  | ret => exact .inr ⟨_, _, if_pos (Nat.eq_zero_of_not_pos h)⟩
  | ldB x => exact .inr ⟨_, _, withDataRange_fault (by decide) (Nat.lt_of_not_le h) _⟩
  | storeRegs x => exact .inr ⟨_, _, withDataRange_fault (Nat.succ_pos _) (Nat.lt_of_not_le h) _⟩
  | loadRegs x => exact .inr ⟨_, _, withDataRange_fault (Nat.succ_pos _) (Nat.lt_of_not_le h) _⟩
  | skp x => exact .inr ⟨_, _, withKey_fault (Nat.lt_of_not_le h) s _⟩
  | sknp x => exact .inr ⟨_, _, withKey_fault (Nat.lt_of_not_le h) s _⟩
  | ldKey x =>
    have hnone : firstPressed s = none := Option.eq_none_iff_forall_ne_some.mpr fun k hk => h ⟨k, hk⟩
    exact .inl (exec_ldKey_of_none_pressed x (firstPressed_none.mp hnone))
  | drw x y n => exact .inr (exec_drw_of_not_fits h)

/-! ### What an instruction ends in -/

/-- The next states of an instruction: the three ends of R190 step 7. -/
inductive ExecTo (i : Instr) (s : State) : State → Prop where
  | completes (hready : ready i s) : ExecTo i s ((effect i s).endAt (target i s))
  | faults (c : FatalCause) (info : Word) : ExecTo i s (takeFault c info s)
  | waits : ExecTo i s s.keyWait

theorem exec_execTo (i : Instr) (s : State) : ∃ t, exec i s = .next t ∧ ExecTo i s t := by
  by_cases h : ready i s
  · exact ⟨_, exec_of_ready h, .completes h⟩
  · rcases exec_of_not_ready h with e | ⟨c, info, e⟩
    · exact ⟨_, e, .waits⟩
    · exact ⟨_, e, .faults c info⟩

theorem ExecTo.of_exec {i : Instr} {s t : State} (h : exec i s = .next t) : ExecTo i s t := by
  obtain ⟨t', e, hto⟩ := exec_execTo i s
  cases e.symm.trans h
  exact hto

/-! ### What a cycle ends in -/

/-- The next states of a cycle: R190 by its steps, each with what the cycle found. -/
inductive CycleTo (s : State) : State → Prop where
  | halted (c : FatalCause) (info : Word) (hstatus : s.status = .faulted c info) : CycleTo s s.haltedCycle
  | faults (c : FatalCause) (info : Word) (hrun : s.status = .running) : CycleTo s (takeFault c info s)
  | unknown (hf : s.fetchable = true) (e : DecodeError) (hd : decode (fetchWord s) = .error e) :
      CycleTo s (s.reportUnknown (fetchWord s))
  | waits (hrun : s.status = .running) : CycleTo s s.keyWait
  | completes (hf : s.fetchable = true) (i : Instr) (hd : decode (fetchWord s) = .ok i) (hready : ready i s) :
      CycleTo s ((effect i s).endAt (target i s)).tick

theorem step_cycleTo (s : State) : ∃ t, step s = .next t ∧ CycleTo s t := by
  rcases step_cases s with ⟨⟨c, info, hs⟩, e⟩ | ⟨c, hrun, -, e⟩ | ⟨hf, ⟨er, hd⟩, e⟩ | ⟨hf, i, hd, e⟩
  · exact ⟨_, e, .halted c info hs⟩
  · exact ⟨_, e, .faults c _ hrun⟩
  · exact ⟨_, e, .unknown hf er hd⟩
  · have hrun : s.status = .running := (fetchable_iff.mp hf).1
    obtain ⟨t, hexec, hto⟩ := exec_execTo i s
    rw [hexec] at e
    cases hto with
    | completes hready => exact ⟨_, e, .completes hf i hd hready⟩
    | faults c info => exact ⟨_, e, .faults c info hrun⟩
    | waits => exact ⟨_, e, .waits hrun⟩

theorem CycleTo.of_step {s t : State} (h : step s = .next t) : CycleTo s t := by
  obtain ⟨t', e, hto⟩ := step_cycleTo s
  cases e.symm.trans h
  exact hto

/-! ### The elements an instruction may write (R41) -/

/-- `t` has every element of `s` that the instruction does not write, the registers, `pc`, `status` and the outcome apart. -/
structure KeepsUnwritten (i : Instr) (s t : State) : Prop where
  keys : t.keys = s.keys
  cfg : t.cfg = s.cfg
  stack : (∀ n, i ≠ .call n) → i ≠ .ret → sameStack s t
  mem : (∀ x, i ≠ .ldB x) → (∀ x, i ≠ .storeRegs x) → t.mem = s.mem
  display : i ≠ .cls → (∀ x y n, i ≠ .drw x y n) → sameDisplay s t
  addr : (∀ n, i ≠ .ldI n) → (∀ x, i ≠ .ldF x) → (∀ x, i ≠ .addI x) → (∀ x, i ≠ .storeRegs x) →
    (∀ x, i ≠ .loadRegs x) → t.i = s.i
  dt : (∀ x, i ≠ .ldDT x) → t.dt = s.dt
  st : (∀ x, i ≠ .ldST x) → t.st = s.st
  draws : (∀ x nn, i ≠ .rnd x nn) → t.draws = s.draws

/-- An instruction that changes registers, `pc`, `status` and the outcome alone. -/
theorem KeepsUnwritten.of_regs (i : Instr) (s : State) (v : Vector Byte 16) (pc : Word) (status : Status) (r : CycleResult) :
    KeepsUnwritten i s { s with v := v, pc := pc, status := status, result := r } :=
  ⟨rfl, rfl, fun _ _ => ⟨rfl, rfl⟩, fun _ _ => rfl, fun _ _ => ⟨rfl, rfl⟩, fun _ _ _ _ _ => rfl, fun _ => rfl, fun _ => rfl,
    fun _ => rfl⟩

theorem KeepsUnwritten.refl (i : Instr) (s : State) : KeepsUnwritten i s s := .of_regs i s s.v s.pc s.status s.result

/-- The end of the instruction writes `pc` and the outcome alone. -/
theorem KeepsUnwritten.endAt {i : Instr} {s t : State} (h : KeepsUnwritten i s t) (next : Word) : KeepsUnwritten i s (t.endAt next) :=
  ⟨h.keys, h.cfg, h.stack, h.mem, h.display, h.addr, h.dt, h.st, h.draws⟩

/-- A sum written to `I` with a flag changes `I` and the register file alone. -/
theorem writeWithFlag_setI_frame (flag : Bool) (f : State → Word) (s : State) :
    writeWithFlag flag (fun t => t.setI (f t)) s =
      { s with v := (writeWithFlag flag (fun t => t.setI (f t)) s).v, i := (writeWithFlag flag (fun t => t.setI (f t)) s).i } := by
  rcases writeWithFlag_cases flag (fun t => t.setI (f t)) s with ⟨-, h⟩ | ⟨-, h⟩ <;> rw [h] <;> rfl

theorem effect_keepsUnwritten (i : Instr) (s : State) : KeepsUnwritten i s (effect i s) := by
  cases i with
  | jp | jpV0 | seImm | sneImm | seReg | sneReg | skp | sknp => exact .refl _ s
  | ldImm | addImm | ldReg | or | and | xor | ldFromDT => exact .of_regs _ s _ s.pc s.status s.result
  | addReg | sub | subn | shr | shl =>
    simp only [effect]
    rw [writeWithFlag_setV_frame]
    exact .of_regs _ s _ s.pc s.status s.result
  | ldKey x =>
    simp only [effect]
    split
    · exact .of_regs _ s _ s.pc s.status s.result
    · exact .refl _ s
  | call nnn =>
    simp only [effect]
    split
    · exact { KeepsUnwritten.refl _ s with stack := fun h _ => absurd rfl (h nnn) }
    · exact .refl _ s
  | ret => exact { KeepsUnwritten.refl _ s with stack := fun _ h => absurd rfl h }
  | ldI nnn => exact { KeepsUnwritten.refl _ s with addr := fun h _ _ _ _ => absurd rfl (h nnn) }
  | ldF x => exact { KeepsUnwritten.refl _ s with addr := fun _ h _ _ _ => absurd rfl (h x) }
  | addI x =>
    simp only [effect]
    rw [writeWithFlag_setI_frame]
    exact { KeepsUnwritten.refl _ s with addr := fun _ _ h _ _ => absurd rfl (h x) }
  | ldB x =>
    simp only [effect]
    rw [storeBytes_frame]
    exact { KeepsUnwritten.refl _ s with mem := fun h _ => absurd rfl (h x) }
  | storeRegs x =>
    simp only [effect]
    rw [storeBytes_frame]
    exact { KeepsUnwritten.refl _ s with
      mem := fun _ h => absurd rfl (h x)
      addr := fun _ _ _ h _ => absurd rfl (h x) }
  | loadRegs x =>
    simp only [effect]
    rw [loadRegsFrom_frame]
    exact { KeepsUnwritten.refl _ s with addr := fun _ _ _ _ h => absurd rfl (h x) }
  | rnd x nn => exact { KeepsUnwritten.refl _ s with draws := fun h => absurd rfl (h x nn) }
  | ldDT x => exact { KeepsUnwritten.refl _ s with dt := fun h => absurd rfl (h x) }
  | ldST x => exact { KeepsUnwritten.refl _ s with st := fun h => absurd rfl (h x) }
  | cls => exact { KeepsUnwritten.refl _ s with display := fun h _ => absurd rfl h }
  | drw x y n => exact { KeepsUnwritten.refl _ s with display := fun _ h => absurd rfl (h x y n) }

theorem ExecTo.keepsUnwritten {i : Instr} {s t : State} (h : ExecTo i s t) : KeepsUnwritten i s t := by
  cases h with
  | completes => exact (effect_keepsUnwritten i s).endAt _
  | faults c info => exact .of_regs i s s.v s.pc _ _
  | waits => exact .of_regs i s s.v s.pc s.status _

/-- No completing instruction writes `status` (R34). -/
theorem effect_status (i : Instr) (s : State) : (effect i s).status = s.status := by
  cases i with
  | addReg | sub | subn | shr | shl =>
    simp only [effect]
    rw [writeWithFlag_setV_frame]
  | addI =>
    simp only [effect]
    rw [writeWithFlag_setI_frame]
  | ldB | storeRegs =>
    simp only [effect, advanceI_status]
    rw [storeBytes_frame]
  | loadRegs =>
    simp only [effect, advanceI_status]
    rw [loadRegsFrom_frame]
  | ldKey | call =>
    simp only [effect]
    split <;> rfl
  | _ => rfl

end Sys2Proof.Machine

namespace Sys2Proof

open Machine

/-- Settles O51: an instruction that faults or waits keeps every element listed, and one that completes makes the writes of its `effect`
alone (`ExecTo.keepsUnwritten`); equal memories read alike. -/
theorem eachElementHasItsWriters : Obligations.EachElementHasItsWriters := by
  intro i s t h
  have hkeep := (ExecTo.of_exec h).keepsUnwritten
  exact ⟨hkeep.keys, hkeep.cfg, hkeep.stack, fun hb hr a => State.readByte_congr (hkeep.mem hb hr) hkeep.cfg a, hkeep.display, hkeep.addr,
    hkeep.dt, hkeep.st, hkeep.draws⟩

end Sys2Proof
end

