-- ==== Sys2Proof/Proofs/Invariant.lean ====
section
/-! The canonical form of memory and the machine invariant (`10_state.md` R25, R27, `40_control_flow.md` R102): every cycle and every
action of the host keeps them, and the statements on them (O54, O55, O56, O57). -/

namespace Sys2Proof.Machine

/-! ### Memory -/

/-- Only LD B and LD [I], Vx write memory, and both store consecutive bytes. -/
theorem effect_wf (i : Instr) {s : State} (h : s.mem.wf s.cfg.font) : (effect i s).mem.wf (effect i s).cfg.font := by
  have hkeep := effect_keepsUnwritten i s
  cases i with
  | ldB x => exact storeBytes_wf _ _ h
  | storeRegs x => exact storeBytes_wf _ _ h
  | _ =>
    rw [hkeep.cfg, hkeep.mem nofun nofun]
    exact h

theorem CycleTo.wf {s t : State} (hto : CycleTo s t) (h : s.mem.wf s.cfg.font) : t.mem.wf t.cfg.font := by
  cases hto with
  | completes _ i => exact effect_wf i h
  | _ => exact h

/-! ### The program counter -/

/-- Every target is at most 0x10FE: the largest is the sum of JP V0 (R25). -/
theorem target_le {i : Instr} {s : State} (hpc : s.pc.toNat ≤ 0xFFE) (hstack : s.stackSound) (hready : ready i s) :
    (target i s).toNat ≤ 0x10FE := by
  have hnext : s.nextPc.toNat ≤ 0x10FE := by
    unfold State.nextPc
    bv_omega
  have hskip : s.skipPc.toNat ≤ 0x10FE := by
    unfold State.skipPc
    bv_omega
  cases i with
  | jp nnn | call nnn =>
    simp only [target, toNat_zextAddr]
    omega
  | jpV0 nnn =>
    simp only [target, BitVec.toNat_add, toNat_zextAddr, toNat_zextByte]
    omega
  | ret =>
    have hsp : 0 < s.sp.val := hready
    obtain ⟨-, -, hle⟩ := hstack (s.sp.val - 1) (by omega)
    exact Nat.le_trans hle (by decide)
  | seImm | sneImm | seReg | sneReg | skp | sknp =>
    simp only [target]
    split
    · exact hskip
    · exact hnext
  | _ => exact hnext

/-! ### The call stack -/

theorem stackSound_of_sameStack {s t : State} (h : sameStack s t) (hs : s.stackSound) : t.stackSound := by
  obtain ⟨hstack, hsp⟩ := h
  intro k hk
  rw [State.stackAt_congr hstack]
  exact hs k (hsp ▸ hk)

/-- CALL pushes an even address from 0x202 to 0x1000, since it was fetched from an even one from 0x200 to 0xFFE (R102). -/
theorem stackSound_push {s : State} (hf : s.fetchable = true) (hs : s.stackSound) (hsp : s.sp.val < 16) :
    (s.push s.nextPc hsp).stackSound := by
  obtain ⟨hlow, hhigh, heven⟩ := pcFault_none_iff.mp (fetchable_iff.mp hf).2
  intro k hk
  rw [State.stackAt_push]
  split
  · have hnext : s.nextPc.toNat = s.pc.toNat + 2 := by
      unfold State.nextPc
      bv_omega
    omega
  · have : k < s.sp.val + 1 := hk
    exact hs k (by omega)

theorem stackSound_pop {s : State} (hs : s.stackSound) : s.pop.stackSound := by
  intro k hk
  have : k < s.sp.val - 1 := hk
  exact hs k (by omega)

theorem effect_stackSound (i : Instr) {s : State} (hf : s.fetchable = true) (hs : s.stackSound) : (effect i s).stackSound := by
  have hkeep := effect_keepsUnwritten i s
  cases i with
  | call nnn =>
    simp only [effect]
    split
    · exact stackSound_push hf hs _
    · exact hs
  | ret => exact stackSound_pop hs
  | _ => exact stackSound_of_sameStack (hkeep.stack nofun nofun) hs

/-! ### The invariant -/

/-- An outcome that reports nothing is a true report. -/
theorem reportSound_of_silent {t : State} (h : t.result = .idle ∨ t.result = .completed ∨ t.result = .waitingForKey) :
    t.reportSound := by
  rcases h with h | h | h <;> simp [State.reportSound, h]

theorem reportSound_takeFault (c : FatalCause) (info : Word) (s : State) : (takeFault c info s).reportSound :=
  ⟨nofun, fun _ _ h => by cases h; rfl⟩

theorem reportSound_reportUnknown {s : State} (hf : s.fetchable = true) : (s.reportUnknown (fetchWord s)).reportSound :=
  ⟨fun _ h => by cases h; exact ⟨hf, rfl⟩, nofun⟩

theorem CycleTo.inv {s t : State} (hto : CycleTo s t) (h : s.Inv) : t.Inv := by
  have hmem := hto.wf h.memory
  cases hto with
  | halted => exact ⟨hmem, h.pc, h.stack, reportSound_of_silent (.inl rfl)⟩
  | faults c info => exact ⟨hmem, h.pc, h.stack, reportSound_takeFault c info s⟩
  | unknown hf => exact ⟨hmem, h.pc, h.stack, reportSound_reportUnknown hf⟩
  | waits => exact ⟨hmem, h.pc, h.stack, reportSound_of_silent (.inr (.inr rfl))⟩
  | completes hf i _ hready =>
    obtain ⟨-, hhigh, -⟩ := pcFault_none_iff.mp (fetchable_iff.mp hf).2
    exact ⟨hmem, target_le hhigh h.stack hready, effect_stackSound i hf h.stack, reportSound_of_silent (.inr (.inl rfl))⟩

/-! ### Reset and the host -/

/-- The reset state has the invariant, whatever count of draws it carries on. -/
theorem inv_resetWith (c : Config) (n : Nat) : ({ State.resetWith c with draws := n } : State).Inv where
  memory := ⟨List.Pairwise.nil, nofun⟩
  pc := show (0x0200 : Word).toNat ≤ 0x10FE by decide
  stack := nofun
  report := reportSound_of_silent (.inl rfl)

theorem inv_setKey (k : Nibble) (down : Bool) {s : State} (h : s.Inv) : (s.setKey k down).Inv :=
  ⟨h.memory, h.pc, h.stack, h.report⟩

theorem inv_presentDone {s : State} (h : s.Inv) : s.presentDone.Inv :=
  ⟨h.memory, h.pc, h.stack, h.report⟩

/-- Under `skip` the host moves `pc` on from a fetchable address, which the standing report names. -/
theorem inv_afterUnknown {s : State} (h : s.Inv) : s.afterUnknown.Inv := by
  unfold State.afterUnknown
  split
  · rename_i w hresult _
    obtain ⟨hf, -⟩ := h.report.1 w hresult
    obtain ⟨-, hhigh, -⟩ := pcFault_none_iff.mp (fetchable_iff.mp hf).2
    refine ⟨h.memory, ?_, h.stack, reportSound_of_silent (.inl rfl)⟩
    show (s.pc + 2).toNat ≤ 0x10FE
    bv_omega
  · exact h

theorem inv_hostAct (a : HostAction) {s : State} (h : s.Inv) : (hostAct a s).Inv := by
  cases a with
  | setKey k down => exact inv_setKey k down h
  | presentDone => exact inv_presentDone h
  | afterUnknown => exact inv_afterUnknown h

/-- A load changes memory alone, so it keeps the invariant where no word at `pc` is being reported. -/
theorem inv_load {s t : State} {image : List Byte} (h : s.Inv) (hidle : s.result = .idle) (hload : s.load image = .ok t) : t.Inv := by
  unfold State.load at hload
  split at hload
  · cases hload
    have hmem := storeBytes_wf image loadBase h.memory
    rw [storeBytes_frame] at hmem ⊢
    exact ⟨hmem, h.pc, h.stack, reportSound_of_silent (.inl hidle)⟩
  · cases hload

end Sys2Proof.Machine

namespace Sys2Proof

open Machine

/-- Settles O54: a cycle writes memory only by an instruction that completes (`CycleTo.wf`), and stored bytes keep the form. -/
theorem memoryStaysCanonical : Obligations.MemoryStaysCanonical :=
  fun _ _ h hstep => (CycleTo.of_step hstep).wf h

/-- Settles O55, by the ends of a cycle (`CycleTo.inv`): only a completing instruction moves `pc` or the stack, and it was fetched from
an even address from 0x200 to 0xFFE. -/
theorem invariantIsKeptByEveryCycle : Obligations.InvariantIsKeptByEveryCycle :=
  fun _ _ h hstep => (CycleTo.of_step hstep).inv h

/-- Settles O56: `inv_resetWith` with no byte drawn. -/
theorem invariantHoldsAtReset : Obligations.InvariantHoldsAtReset :=
  ⟨inv_resetWith defaultConfig 0, fun c => inv_resetWith c 0⟩

/-- Settles O57: each action by its own lemma; the host's reset gives the reset state, from which a load starts. -/
theorem hostActionsKeepTheInvariant : Obligations.HostActionsKeepTheInvariant :=
  ⟨fun a _ h => inv_hostAct a h, fun s => inv_resetWith s.cfg s.draws,
    fun s _ _ hload => inv_load (inv_resetWith s.cfg s.draws) rfl hload⟩

end Sys2Proof
end

