-- ==== Sys2Proof/Proofs/Cycle.lean ====
section
/-! What every cycle of every state does: its outcome, its faults, its timers (`47_step_driver.md` R190 to R199), the word it fetches,
and the statements on it (O7, O8, O9, O11, O12, O13, O14, O15, O53). -/

namespace Sys2Proof.Machine

/-! ### The fetch -/

theorem fetchable_of_bounds {s : State} (hrun : s.status = .running) (hlow : 0x200 ≤ s.pc.toNat) (hhigh : s.pc.toNat ≤ 0xFFE)
    (heven : s.pc.toNat % 2 = 0) : s.fetchable = true :=
  fetchable_iff.mpr ⟨hrun, pcFault_none_iff.mpr ⟨hlow, hhigh, heven⟩⟩

theorem decode_of_decodeBytes_pair {hi lo : Byte} {i : Instr} (h : decodeBytes [hi, lo] = .ok (i, [])) :
    decode (wordOfBytes hi lo) = .ok i := by
  cases hd : decode (wordOfBytes hi lo) <;> simp only [decodeBytes, hd] at h <;> cases h
  rfl

/-- The timers count down after an instruction that completed, and only then (R192). -/
theorem afterExec_eq (t : State) : afterExec t = if t.result = .completed then t.tick else t := by
  unfold afterExec
  cases t.result <;> simp

/-! ### A word placed where the next cycle fetches -/

theorem tableWord_toNat (w : Word) : tableWord 16 w.toNat = w := by
  unfold tableWord
  rw [Nat.mod_eq_of_lt w.isLt, BitVec.ofNat_toNat, BitVec.setWidth_eq]

theorem fetchable_madeFetchable (s : State) : s.madeFetchable.fetchable = true := by
  unfold State.madeFetchable
  split
  · assumption
  · have hpc : pcFault 0x0200 = none := by decide
    exact fetchable_iff.mpr ⟨rfl, hpc⟩

/-- Placing a word changes memory alone. -/
theorem placeWord_frame (w : Word) (s : State) : s.placeWord w = { s with mem := (s.placeWord w).mem } :=
  storeBytes_frame ..

theorem fetchable_placeWord (w : Word) (s : State) : (s.placeWord w).fetchable = s.fetchable := by
  rw [placeWord_frame]
  rfl

/-- The two bytes of a word placed at a fetchable `pc` lie inside memory. -/
theorem placeWord_fits {s : State} (hf : s.fetchable = true) (w : Word) : s.pc.toNat + (bytesOfWord w).length ≤ memSize := by
  obtain ⟨-, hhigh, -⟩ := pcFault_none_iff.mp (fetchable_iff.mp hf).2
  show s.pc.toNat + 2 ≤ 4096
  omega

theorem fetchWord_placeWord {s : State} (hf : s.fetchable = true) (w : Word) : fetchWord (s.placeWord w) = w := by
  have hfit := placeWord_fits hf w
  have hhi : (s.placeWord w).readByte s.pc.toNat = w.extractLsb' 8 8 :=
    Option.some.inj (State.readByte_storeBytes_inside (k := 0) s hfit Nat.zero_lt_two)
  have hlo : (s.placeWord w).readByte (s.pc.toNat + 1) = w.extractLsb' 0 8 :=
    Option.some.inj (State.readByte_storeBytes_inside (k := 1) s hfit Nat.one_lt_two)
  have hpc : (s.placeWord w).pc = s.pc := storeBytes_pc ..
  unfold fetchWord State.readWord
  rw [hpc, hhi, hlo, wordOfBytes_bytesOfWord]

theorem withFetchWord_toNat (s : State) (w : Word) : s.withFetchWord 16 w.toNat = s.madeFetchable.placeWord w := by
  unfold State.withFetchWord
  rw [tableWord_toNat]

/-! ### The fetch faults -/

theorem step_of_pcFault {s : State} {c : FatalCause} (hrun : s.status = .running) (hpc : pcFault s.pc = some c) :
    step s = .next (takeFault c s.pc s) := by
  unfold step
  rw [fetchStage_running hrun]
  unfold fetchRunning
  rw [hpc]

theorem pcFault_out_of_range {pc : Word} (h : pc.toNat < 0x200 ∨ 0xFFE < pc.toNat) : pcFault pc = some .pcOutOfRange :=
  if_pos h

theorem pcFault_misaligned {pc : Word} (hlow : 0x200 ≤ pc.toNat) (hhigh : pc.toNat ≤ 0xFFE) (hodd : pc.toNat % 2 = 1) :
    pcFault pc = some .pcMisaligned := by
  have hbit : pc.getLsbD 0 = true := by
    rw [← BitVec.testBit_toNat, Nat.testBit_zero, hodd]
    rfl
  unfold pcFault
  rw [if_neg (by omega), if_pos hbit]

theorem step_of_halted {s : State} {c : FatalCause} {info : Word} (h : s.status = .faulted c info) :
    step s = .next s.haltedCycle := by
  unfold step
  rw [fetchStage_halted h]

/-! ### The timers -/

theorem toNat_tickTimer (b : Byte) : (tickTimer b).toNat = b.toNat - 1 := by
  unfold tickTimer
  split
  · rename_i h
    rw [h]
    rfl
  · bv_omega

/-! ### A finished program -/

theorem step_of_finished {s : State} (h : s.finished) : step s = .next (s.endAt s.pc).tick := by
  obtain ⟨hf, nnn, hd, htarget⟩ := h
  rw [step_of_decode_ok hf hd, exec_of_ready (i := .jp nnn) trivial, finishCycle_complete]
  show _ = Host.Outcome.next (s.endAt s.pc).tick
  rw [← htarget]
  rfl

/-! ### The redraw signal -/

/-- The display instructions set the signal, the others leave it (R33). -/
theorem effect_redrawPending (i : Instr) {s : State} (h : s.redrawPending = true) : (effect i s).redrawPending = true := by
  have hkeep := effect_keepsUnwritten i s
  cases i with
  | cls | drw => rfl
  | _ => exact (hkeep.display nofun nofun).2.trans h

end Sys2Proof.Machine

namespace Sys2Proof

open Machine

/-- Settles O7: the bounds make `pc` fetchable and the bytes are the fetched word, so the cycle is the instruction and what follows it
(`step_of_decode_ok`), the timers' count exactly when it completed (`afterExec_eq`). -/
theorem stepRunsTheDecodedInstruction : Obligations.StepRunsTheDecodedInstruction := by
  intro s i hrun hlow hhigh heven hbytes
  have hd : decode (fetchWord s) = .ok i := decode_of_decodeBytes_pair hbytes
  rw [step_of_decode_ok (fetchable_of_bounds hrun hlow hhigh heven) hd]
  cases exec i s with
  | next t => exact congrArg Host.Outcome.next (afterExec_eq t)
  | fault r => rfl
  | refused r => rfl

/-- Settles O8: after the placing the state can fetch and fetches the word; a state that can fetch is placed into as it is. -/
theorem placedWordIsRunNext : Obligations.PlacedWordIsRunNext := by
  intro s w i hd
  rw [withFetchWord_toNat]
  have hmade := fetchable_madeFetchable s
  refine ⟨step_of_decode_ok ((fetchable_placeWord ..).trans hmade) (by rwa [fetchWord_placeWord hmade]), fun hf => ?_⟩
  have hsame : s.madeFetchable = s := if_pos hf
  rw [hsame]
  refine ⟨storeBytes_pc .., fun r => ?_, fun a hpc hnext => ?_⟩
  · rw [placeWord_frame]
    rfl
  · have hoff : a < s.pc.toNat ∨ s.pc.toNat + (bytesOfWord w).length ≤ a := by
      show _ ∨ s.pc.toNat + 2 ≤ a
      omega
    exact State.readByte_storeBytes_outside s (placeWord_fits hf w) hoff

/-- Settles O9: the two checks of R191 (`pcFault_out_of_range`, `pcFault_misaligned`), each taken as a fault at the fetch. -/
theorem fetchChecksFault : Obligations.FetchChecksFault :=
  fun _ hrun => ⟨fun h => step_of_pcFault hrun (pcFault_out_of_range h),
    fun hlow hhigh hodd => step_of_pcFault hrun (pcFault_misaligned hlow hhigh hodd)⟩

/-- Settles O11: `step_of_halted`; the host's reset leaves `status` running by definition. -/
theorem haltedCoreDoesNothing : Obligations.HaltedCoreDoesNothing :=
  fun _ _ _ h => ⟨step_of_halted h, rfl, rfl⟩

/-- Settles O12: the five ends of a cycle (`step_cycleTo`) with their outcomes; the error output is read off the outcome. -/
theorem everyCycleEndsInOneOutcome : Obligations.EveryCycleEndsInOneOutcome := by
  refine ⟨fun s => ?_, rfl, rfl, rfl, rfl, rfl, rfl, rfl⟩
  obtain ⟨t, hstep, hto⟩ := step_cycleTo s
  refine ⟨t, hstep, ?outcome, fun w h => by simp [State.err, h], fun c info h => by simp [State.err, h], ?silent⟩
  case outcome =>
    cases hto with
    | halted c info hstatus => exact .inl ⟨rfl, c, info, hstatus⟩
    | faults c info hrun => exact .inr ⟨hrun, .inr (.inr (.inr ⟨c, info, rfl, rfl⟩))⟩
    | unknown hf => exact .inr ⟨(fetchable_iff.mp hf).1, .inr (.inr (.inl ⟨_, rfl⟩))⟩
    | waits hrun => exact .inr ⟨hrun, .inr (.inl rfl)⟩
    | completes hf => exact .inr ⟨(fetchable_iff.mp hf).1, .inl rfl⟩
  case silent => rintro (h | h | h) <;> simp [State.err, h]

/-- Settles O13: of the ends of a cycle only the fault changes `status`; a completing instruction keeps it (`effect_status`). -/
theorem faultEntryWritesStatusAlone : Obligations.FaultEntryWritesStatusAlone := by
  intro s t hstep hchanged
  cases CycleTo.of_step hstep with
  | faults c info hrun => exact ⟨hrun, c, info, rfl⟩
  | completes _ i => exact absurd (effect_status i s) hchanged
  | halted | unknown | waits => exact absurd rfl hchanged

/-- Settles O14: a completed cycle ends in a tick (`toNat_tickTimer`) of what the instruction left in the timers, and only its own move
writes a timer (`effect_keepsUnwritten`); no other end of a cycle is completed or moves one. -/
theorem timersCountCompletedCycles : Obligations.TimersCountCompletedCycles := by
  intro s t hstep
  cases CycleTo.of_step hstep with
  | halted | faults | unknown | waits => exact ⟨fun _ => ⟨rfl, rfl⟩, nofun⟩
  | completes hf i hd =>
    have hkeep := effect_keepsUnwritten i s
    refine ⟨fun h => absurd rfl h, fun _ => ⟨fun hother => ?_, fun hother => ?_, fun x hx => ?_, fun x hx => ?_⟩⟩
    · have hdt : (effect i s).dt = s.dt := hkeep.dt fun x e => hother x (e ▸ hd)
      exact (toNat_tickTimer _).trans (by rw [State.endAt_dt, hdt])
    · have hst : (effect i s).st = s.st := hkeep.st fun x e => hother x (e ▸ hd)
      exact (toNat_tickTimer _).trans (by rw [State.endAt_st, hst])
    · cases hd.symm.trans hx
      exact toNat_tickTimer _
    · cases hd.symm.trans hx
      exact toNat_tickTimer _

/-- Settles O15: the cycle of a finished program is a jump to its own `pc` (`step_of_finished`), after which all it stands on is the
same. -/
theorem finishedProgramStaysFinished : Obligations.FinishedProgramStaysFinished :=
  fun s h => ⟨(s.endAt s.pc).tick, step_of_finished h, h, rfl, rfl, fun _ => rfl, rfl, fun _ => rfl, ⟨rfl, rfl⟩, ⟨rfl, rfl⟩,
    ⟨rfl, rfl, rfl⟩, rfl, toNat_tickTimer s.dt, toNat_tickTimer s.st⟩

/-- Settles O53: a completing instruction sets the signal or leaves it (`effect_redrawPending`), every other end of a cycle leaves it. -/
theorem redrawSignalStands : Obligations.RedrawSignalStands := by
  refine ⟨fun s t hstep h => ?_, fun s => ⟨rfl, rfl⟩⟩
  cases CycleTo.of_step hstep with
  | completes _ i => exact effect_redrawPending i h
  | halted | faults | unknown | waits => exact h

end Sys2Proof
end

