-- ==== Sys2Proof/Proofs/ControlFlow.lean ====
section
/-! The control-flow instructions (`40_control_flow.md` R100 to R107, `60_exceptions.md` R203, R204), and the statements on them (O16 to
O23). -/

namespace Sys2Proof.Machine

/-! ### Instructions that write `pc` alone -/

/-- Changes of the registers, `I`, `pc`, memory and the outcome alone. -/
theorem sameMachine_update (s : State) (v : Vector Byte 16) (i pc : Word) (mem : Memory) (r : CycleResult) :
    sameMachine s { s with v := v, i := i, pc := pc, mem := mem, result := r } :=
  ⟨⟨rfl, rfl⟩, ⟨rfl, rfl⟩, ⟨rfl, rfl⟩, ⟨rfl, rfl, rfl⟩, rfl⟩

theorem sameButPc_endAt (s : State) (next : Word) : sameButPc s (s.endAt next) :=
  ⟨fun _ => rfl, rfl, fun _ => rfl, sameMachine_update ..⟩

/-- An instruction without writes goes to its target and changes nothing else. -/
theorem exec_writes_pc_alone {i : Instr} {s : State} {next : Word} (hready : ready i s) (heffect : effect i s = s)
    (htarget : target i s = next) :
    ∃ t, exec i s = .next t ∧ t.pc = next ∧ t.result = .completed ∧ sameButPc s t := by
  refine ⟨s.endAt next, ?_, rfl, rfl, sameButPc_endAt s next⟩
  rw [exec_of_ready hready, heffect, htarget]
  rfl

/-- The skip on equal: pc + 4, else pc + 2 (R103). -/
theorem skip_of_beq {α : Type} [DecidableEq α] (a b : α) (s : State) :
    (if a == b then s.skipPc else s.nextPc) = if a = b then s.pc + 4 else s.pc + 2 := by
  simp only [beq_iff_eq]
  rfl

/-- The skip on unequal, the other way round (R104). -/
theorem skip_of_bne {α : Type} [DecidableEq α] (a b : α) (s : State) :
    (if a != b then s.skipPc else s.nextPc) = if a = b then s.pc + 2 else s.pc + 4 := by
  simp only [bne_iff_ne, ne_eq, ite_not]
  rfl

/-! ### The call stack -/

theorem some_stackAt (s : State) {k : Nat} (hk : k < 16) : some (s.stackAt k) = s.stack.toList[k]? := by
  simp [State.stackAt, Vector.getD, hk]

theorem toList_stack_push (s : State) (a : Word) (h : s.sp.val < 16) :
    (s.push a h).stack.toList = s.stack.toList.set s.sp.val a :=
  Vector.toList_set h

theorem exec_call {s : State} (nnn : Addr12) (h : s.sp.val < 16) :
    exec (.call nnn) s = .next ((s.push s.nextPc h).endAt (zextAddr nnn)) :=
  dif_pos h

theorem exec_ret {s : State} (h : 0 < s.sp.val) : exec .ret s = .next (s.pop.endAt (s.stackAt (s.sp.val - 1))) :=
  exec_of_ready (i := .ret) h

/-- After a CALL the newest entry is the address behind it, and the entries below are the ones of before (R101). -/
theorem stackAt_after_push {s : State} {a : Word} {h : s.sp.val < 16} {u : State} (hu : sameStack (s.push a h) u) :
    u.stackAt s.sp.val = a ∧ ∀ k, k < s.sp.val → u.stack.toList[k]? = s.stack.toList[k]? := by
  obtain ⟨hstack, -⟩ := hu
  refine ⟨?_, fun k hk => ?_⟩
  · rw [State.stackAt_congr hstack, State.stackAt_push, if_pos rfl]
  · rw [hstack, toList_stack_push, List.getElem?_set_ne (Nat.ne_of_gt hk)]

end Sys2Proof.Machine

namespace Sys2Proof

open Machine

/-- Settles O16: the row's mask, and an instruction whose target is the field. -/
theorem jpSetsPc : Obligations.JpSetsPc := by
  refine ⟨fun _ h => decode_of_selects (.jp 0) h, fun nnn s => ?_⟩
  obtain ⟨t, hexec, hpc, hrest⟩ := exec_writes_pc_alone (i := .jp nnn) (s := s) trivial rfl rfl
  exact ⟨t, hexec, by rw [hpc]; exact toNat_zextAddr nnn, hrest⟩

/-- Settles O17: as O16; the sum of a 12-bit and an 8-bit number is below 65536, so the 16-bit addition does not wrap. -/
theorem jpV0SetsPcToTheSum : Obligations.JpV0SetsPcToTheSum := by
  refine ⟨fun _ h => decode_of_selects (.jpV0 0) h, fun nnn s => ?_⟩
  obtain ⟨t, hexec, hpc, hrest⟩ := exec_writes_pc_alone (i := .jpV0 nnn) (s := s) trivial rfl rfl
  refine ⟨t, hexec, ?_, hrest⟩
  rw [hpc, target, BitVec.toNat_add, toNat_zextAddr, toNat_zextByte]
  exact Nat.mod_eq_of_lt (by omega)

/-- Settles O18: `exec_call`, whose push sets one entry of the list (`toList_stack_push`). -/
theorem callPushesTheNextAddress : Obligations.CallPushesTheNextAddress :=
  ⟨fun _ h => decode_of_selects (.call 0) h, fun nnn s hsp =>
    ⟨_, exec_call nnn hsp, toList_stack_push s _ hsp, rfl, toNat_zextAddr nnn, rfl,
      fun _ => rfl, rfl, fun _ => rfl, ⟨rfl, rfl⟩, ⟨rfl, rfl⟩, ⟨rfl, rfl, rfl⟩, rfl⟩⟩

/-- Settles O19: `exec_ret`, whose pop moves `sp` alone. -/
theorem retPopsPc : Obligations.RetPopsPc :=
  ⟨decode_encode .ret, fun s hsp => ⟨_, exec_ret hsp, some_stackAt s (by omega), Nat.sub_add_cancel hsp, rfl, rfl,
    fun _ => rfl, rfl, fun _ => rfl, ⟨rfl, rfl⟩, ⟨rfl, rfl⟩, ⟨rfl, rfl, rfl⟩, rfl⟩⟩

/-- Settles O20: both instructions check the depth before they write. -/
theorem stackFaults : Obligations.StackFaults :=
  ⟨fun _ _ hfull => dif_neg (by omega), fun _ hempty => if_pos hempty⟩

/-- Settles O21: the RET reads the entry the CALL pushed and takes `sp` back (`stackAt_after_push`). -/
theorem retUndoesCall : Obligations.RetUndoesCall := by
  intro nnn s t u hsp hcall hu
  cases (exec_call nnn hsp).symm.trans hcall
  obtain ⟨htop, hbelow⟩ := stackAt_after_push (s := s) (a := s.nextPc) (h := hsp) hu
  have hdepth : u.sp.val = s.sp.val + 1 := congrArg Fin.val hu.2
  refine ⟨_, exec_ret (by omega), ?_, Fin.ext ?_, hbelow⟩
  · rw [State.endAt_pc, hdepth]
    exact htop
  · show u.sp.val - 1 = s.sp.val
    omega

/-- Settles O22: the two rows, and the two skips as instructions without writes. -/
theorem immediateSkips : Obligations.ImmediateSkips :=
  ⟨fun _ h => decode_of_selects (.seImm 0 0) h, fun _ h => decode_of_selects (.sneImm 0 0) h,
    fun x nn _ => ⟨exec_writes_pc_alone (i := .seImm x nn) trivial rfl (skip_of_beq ..),
      exec_writes_pc_alone (i := .sneImm x nn) trivial rfl (skip_of_bne ..)⟩⟩

/-- Settles O23: as O22, with a register in the place of the byte. -/
theorem registerSkips : Obligations.RegisterSkips :=
  ⟨fun _ h => decode_of_selects (.seReg 0 0) h, fun _ h => decode_of_selects (.sneReg 0 0) h,
    fun x y _ => ⟨exec_writes_pc_alone (i := .seReg x y) trivial rfl (skip_of_beq ..),
      exec_writes_pc_alone (i := .sneReg x y) trivial rfl (skip_of_bne ..)⟩⟩

end Sys2Proof
end

