-- ==== Sys2Proof/Proofs/RegisterFlags.lean ====
section
/-! The register instructions and the two orders in which a flag and a result are written (`41_register_ops.md` R121 to R133,
`42_memory_ops.md` R142), and the statements on them (O25 to O31, O33). -/

namespace Sys2Proof.Machine

/-! ### Results and flags as numbers -/

theorem toNat_sub_byte (a b : Byte) : (a - b).toNat = (a.toNat + 256 - b.toNat) % 256 := by
  bv_omega

theorem toNat_half (a : Byte) : (a >>> 1).toNat = a.toNat / 2 := by
  rw [BitVec.toNat_ushiftRight, Nat.shiftRight_eq_div_pow]

theorem toNat_double (a : Byte) : (a <<< 1).toNat = a.toNat * 2 % 256 := by
  rw [BitVec.toNat_shiftLeft, Nat.shiftLeft_eq]

theorem lowBitFlag_eq (a : Byte) : lowBitFlag a = decide (a.toNat % 2 = 1) := by
  unfold lowBitFlag
  rw [← BitVec.testBit_toNat, Nat.testBit_zero]

theorem highBitFlag_eq (a : Byte) : highBitFlag a = decide (a.toNat / 128 = 1) := by
  unfold highBitFlag
  rw [← BitVec.testBit_toNat, Nat.testBit_eq_decide_div_mod_eq, decide_eq_decide]
  omega

/-- The byte a flag is written as (R133). -/
theorem toNat_flagByte (p : Prop) [Decidable p] : (if decide p then 1 else 0 : Byte).toNat = if p then 1 else 0 := by
  by_cases h : p <;> simp [h]

theorem toNat_lowBit (a : Byte) : (if lowBitFlag a then 1 else 0 : Byte).toNat = a.toNat % 2 := by
  rw [lowBitFlag_eq, toNat_flagByte]
  split <;> omega

theorem toNat_highBit (a : Byte) : (if highBitFlag a then 1 else 0 : Byte).toNat = a.toNat / 128 := by
  rw [highBitFlag_eq, toNat_flagByte]
  split <;> omega

/-- `afterFlag` is the register file after the flag alone has been written. -/
theorem toNat_getV_setFlag (s : State) (flag : Bool) (r : Nibble) : ((s.setFlag flag).getV r).toNat = afterFlag s flag r := by
  rw [State.getV_setFlag]
  unfold afterFlag
  split
  · cases flag <;> rfl
  · rfl

/-! ### The writes of `completeNext` and a flag -/

theorem getV_setFlag_regF (s : State) (flag : Bool) : (s.setFlag flag).getV 0xF = if flag then 1 else 0 :=
  (State.getV_setFlag ..).trans (if_pos rfl)

theorem getV_setFlag_of_ne (s : State) (flag : Bool) {r : Nibble} (hr : r ≠ 0xF) : (s.setFlag flag).getV r = s.getV r :=
  (State.getV_setFlag ..).trans (if_neg hr)

/-- Changes of the registers, `pc` and the outcome alone. -/
theorem sameButRegs_update (s : State) (v : Vector Byte 16) (pc : Word) (r : CycleResult) :
    sameButRegs s { s with v := v, pc := pc, result := r } :=
  ⟨rfl, fun _ => rfl, sameMachine_update ..⟩

section
variable {i : Instr} {s : State} {x : Nibble} {flag : Bool} {f : State → Byte}

/-- `flag_last`: the result from the registers as they were, then VF, which is what stands in register 15. -/
theorem exec_flagLast_setV (hlast : s.cfg.vfWriteOrder = .flagLast)
    (hexec : exec i s = completeNext (writeWithFlag flag (fun t => t.setV x (f t)) s)) {n m : Nat} (hn : (f s).toNat = n)
    (hm : (if flag then 1 else 0 : Byte).toNat = m) :
    ∃ t, exec i s = .next t ∧ (x ≠ 0xF → (t.getV x).toNat = n) ∧ (t.getV 0xF).toNat = m ∧ t.pc = s.pc + 2 ∧
      t.result = .completed ∧ (∀ r, r ≠ x → r ≠ 0xF → t.getV r = s.getV r) ∧ sameButRegs s t := by
  rw [writeWithFlag_last hlast, completeNext_eq] at hexec
  refine ⟨_, hexec, fun hx => ?_, ?_, rfl, rfl, fun r hrx hrf => ?_, sameButRegs_update ..⟩
  · rw [State.getV_endAt, getV_setFlag_of_ne _ _ hx, State.getV_setV, if_pos rfl, hn]
  · rw [State.getV_endAt, getV_setFlag_regF, hm]
  · rw [State.getV_endAt, getV_setFlag_of_ne _ _ hrf, State.getV_setV, if_neg hrx]

/-- `flag_first`: VF, then the result from the registers with the flag in them, over the flag where Vx is register 15. -/
theorem exec_flagFirst_setV (hfirst : s.cfg.vfWriteOrder = .flagFirst) {c : Bool} (hc : c = flag)
    (hexec : exec i s = completeNext (writeWithFlag flag (fun t => t.setV x (f t)) s)) {n : Nat} (hn : (f (s.setFlag c)).toNat = n) :
    ∃ t, exec i s = .next t ∧ (t.getV x).toNat = n ∧ (∀ r, r ≠ x → (t.getV r).toNat = afterFlag s c r) ∧ t.pc = s.pc + 2 ∧
      t.result = .completed ∧ sameButRegs s t := by
  rw [writeWithFlag_first hfirst, completeNext_eq, ← hc] at hexec
  refine ⟨_, hexec, ?_, fun r hr => ?_, rfl, rfl, sameButRegs_update ..⟩
  · rw [State.getV_endAt, State.getV_setV, if_pos rfl, hn]
  · rw [State.getV_endAt, State.getV_setV, if_neg hr, toNat_getV_setFlag]

/-- A flag in VF and a result in another register can be written in either order. -/
theorem setV_setFlag_comm (s : State) (flag : Bool) (b : Byte) (hx : x ≠ 0xF) :
    (s.setFlag flag).setV x b = (s.setV x b).setFlag flag := by
  have hne : regF.toNat ≠ x.toNat := fun e => hx (BitVec.eq_of_toNat_eq e.symm)
  unfold State.setFlag State.setV
  simp only
  rw [Vector.set_comm _ _ hne]

/-- A register other than VF reads the same whatever the order and the flag. -/
theorem getV_withOrder_setFlag (s : State) (flag : Bool) {r : Nibble} (hr : r ≠ 0xF) :
    ((s.withOrder .flagFirst).setFlag flag).getV r = (s.withOrder .flagLast).getV r :=
  getV_setFlag_of_ne _ flag hr

/-- Both orders agree on a register result when neither the operands nor the destination are VF. -/
theorem ordersAgree_setV {y : Nibble} (op : Byte → Byte → Byte) (flag : Bool) (hx : x ≠ 0xF) (hy : y ≠ 0xF)
    (hexec : ∀ o, exec i (s.withOrder o) =
      completeNext (writeWithFlag flag (fun t => t.setV x (op (t.getV x) (t.getV y))) (s.withOrder o))) : ordersAgree i s := by
  refine ⟨_, (hexec .flagLast).trans (congrArg completeNext (writeWithFlag_last rfl _ _)), (hexec .flagFirst).trans ?_⟩
  rw [writeWithFlag_first rfl, getV_withOrder_setFlag s flag hx, getV_withOrder_setFlag s flag hy, setV_setFlag_comm _ _ _ hx]
  rfl

/-- Both orders agree on ADD I, Vx when Vx is not VF: the sum goes to `I`. -/
theorem ordersAgree_addI (hx : x ≠ 0xF) : ordersAgree (.addI x) s := by
  refine ⟨_, congrArg completeNext (writeWithFlag_last rfl _ _), ?_⟩
  refine (congrArg completeNext (writeWithFlag_first (s := s.withOrder .flagFirst) rfl _ _)).trans ?_
  rw [getV_withOrder_setFlag s _ hx]
  rfl

end

end Sys2Proof.Machine

namespace Sys2Proof

open Machine

/-- Settles O25: the two rows, and two register writes that complete (`completeNext_setV`). -/
theorem addImmAndRegisterCopy : Obligations.AddImmAndRegisterCopy := by
  refine ⟨fun _ h => decode_of_selects (.addImm 0 0) h, fun _ h => decode_of_selects (.ldReg 0 0) h, fun x y nn s =>
    ⟨?_, completeNext_setV s x (s.getV y)⟩⟩
  obtain ⟨t, hexec, hx, hrest⟩ := completeNext_setV s x (s.getV x + nn)
  exact ⟨t, hexec, by rw [hx, BitVec.toNat_add], hrest⟩

/-- Settles O26: as O25; the bits of OR, AND and XOR of two bytes are those of the bits. -/
theorem logicalOperations : Obligations.LogicalOperations := by
  refine ⟨fun _ h => decode_of_selects (.or 0 0) h, fun _ h => decode_of_selects (.and 0 0) h, fun _ h => decode_of_selects (.xor 0 0) h,
    fun x y s => ⟨?or, ?and, ?xor⟩⟩
  case or =>
    obtain ⟨t, hexec, hx, hrest⟩ := completeNext_setV s x (s.getV x ||| s.getV y)
    exact ⟨t, hexec, fun k => by rw [hx, BitVec.getLsbD_or], hrest⟩
  case and =>
    obtain ⟨t, hexec, hx, hrest⟩ := completeNext_setV s x (s.getV x &&& s.getV y)
    exact ⟨t, hexec, fun k => by rw [hx, BitVec.getLsbD_and], hrest⟩
  case xor =>
    obtain ⟨t, hexec, hx, hrest⟩ := completeNext_setV s x (s.getV x ^^^ s.getV y)
    exact ⟨t, hexec, fun k => by rw [hx, BitVec.getLsbD_xor], hrest⟩

/-- Settles O27: `exec_flagLast_setV` with the sum and the carry. -/
theorem addSetsTheCarry : Obligations.AddSetsTheCarry :=
  ⟨fun _ h => decode_of_selects (.addReg 0 0) h,
    fun x y _ hlast => exec_flagLast_setV (i := .addReg x y) hlast rfl (BitVec.toNat_add ..) (toNat_flagByte _)⟩

/-- Settles O28: `exec_flagLast_setV` with the two differences, each with its minuend's no-borrow flag. -/
theorem subtractionsSetNoBorrow : Obligations.SubtractionsSetNoBorrow :=
  ⟨fun _ h => decode_of_selects (.sub 0 0) h, fun _ h => decode_of_selects (.subn 0 0) h, fun x y _ hlast =>
    ⟨exec_flagLast_setV (i := .sub x y) hlast rfl (toNat_sub_byte ..) (toNat_flagByte _),
      exec_flagLast_setV (i := .subn x y) hlast rfl (toNat_sub_byte ..) (toNat_flagByte _)⟩⟩

/-- Settles O29: `exec_flagLast_setV` with half and double and the bit that leaves; neither meaning names `y`. -/
theorem shiftsByOne : Obligations.ShiftsByOne :=
  ⟨fun _ h => decode_of_selects (.shr 0 0) h, fun _ h => decode_of_selects (.shl 0 0) h, fun _ _ _ _ => ⟨rfl, rfl⟩, fun x y _ hlast =>
    ⟨exec_flagLast_setV (i := .shr x y) hlast rfl (toNat_half _) (toNat_lowBit _),
      exec_flagLast_setV (i := .shl x y) hlast rfl (toNat_double _) (toNat_highBit _)⟩⟩

/-- Settles O30: `exec_flagFirst_setV` for the five with a register result, the registers they read being those of `afterFlag`; ADD I, Vx
reads them in the same way and writes `I`. -/
theorem flagFirstRecomputesTheResult : Obligations.FlagFirstRecomputesTheResult := by
  intro x y s hfirst
  refine ⟨fun c hc => ?add, fun c hc => ?sub, fun c hc => ?subn, fun c hc => ?shr, fun c hc => ?shl, fun c hc => ?addI⟩
  case add =>
    exact exec_flagFirst_setV (i := .addReg x y) hfirst hc rfl (by rw [BitVec.toNat_add, toNat_getV_setFlag, toNat_getV_setFlag])
  case sub =>
    exact exec_flagFirst_setV (i := .sub x y) hfirst hc rfl (by rw [toNat_sub_byte, toNat_getV_setFlag, toNat_getV_setFlag])
  case subn =>
    exact exec_flagFirst_setV (i := .subn x y) hfirst hc rfl (by rw [toNat_sub_byte, toNat_getV_setFlag, toNat_getV_setFlag])
  case shr =>
    exact exec_flagFirst_setV (i := .shr x y) hfirst (hc.trans (lowBitFlag_eq _).symm) rfl (by rw [toNat_half, toNat_getV_setFlag])
  case shl =>
    exact exec_flagFirst_setV (i := .shl x y) hfirst (hc.trans (highBitFlag_eq _).symm) rfl (by rw [toNat_double, toNat_getV_setFlag])
  case addI =>
    have hexec : exec (.addI x) s = completeNext ((s.setFlag c).setI (s.i + zextByte ((s.setFlag c).getV x))) := by
      rw [hc]
      exact congrArg completeNext (writeWithFlag_first hfirst _ _)
    refine ⟨_, hexec, ?_, fun r => toNat_getV_setFlag s c r, rfl, rfl, fun _ => rfl, sameMachine_update ..⟩
    rw [State.endAt_i, State.setI_i, BitVec.toNat_add, toNat_zextByte, toNat_getV_setFlag]

/-- Settles O31: with register 15 no operand, the result neither reads VF nor overwrites it (`ordersAgree_setV`, `ordersAgree_addI`). -/
theorem writeOrderMattersOnlyForVF : Obligations.WriteOrderMattersOnlyForVF :=
  fun x y s hx =>
    ⟨ordersAgree_setV (i := .shr x y) (fun a _ => a >>> 1) (lowBitFlag (s.getV x)) hx hx fun _ => rfl,
      ordersAgree_setV (i := .shl x y) (fun a _ => a <<< 1) (highBitFlag (s.getV x)) hx hx fun _ => rfl,
      ordersAgree_addI hx, fun hy =>
      ⟨ordersAgree_setV (i := .addReg x y) (fun a b => a + b) (carryFlag (s.getV x) (s.getV y)) hx hy fun _ => rfl,
        ordersAgree_setV (i := .sub x y) (fun a b => a - b) (noBorrowFlag (s.getV x) (s.getV y)) hx hy fun _ => rfl,
        ordersAgree_setV (i := .subn x y) (fun a b => b - a) (noBorrowFlag (s.getV y) (s.getV x)) hx hy fun _ => rfl⟩⟩

/-- Settles O33: the sum goes to `I`, which no flag write touches, and the flag to VF. -/
theorem addISetsTheAddressFlag : Obligations.AddISetsTheAddressFlag := by
  refine ⟨fun _ h => decode_of_selects (.addI 0) h, fun x s hlast => ?_⟩
  have hexec : exec (.addI x) s = completeNext ((s.setI (s.i + zextByte (s.getV x))).setFlag (addressFlag s.i (s.getV x))) :=
    congrArg completeNext (writeWithFlag_last hlast _ _)
  refine ⟨_, hexec, ?_, ?_, rfl, rfl, fun r hr => getV_setFlag_of_ne _ _ hr, fun _ => rfl, sameMachine_update ..⟩
  · show (s.i + zextByte (s.getV x)).toNat = _
    rw [BitVec.toNat_add, toNat_zextByte]
  · rw [State.getV_endAt, getV_setFlag_regF]
    exact toNat_flagByte _

end Sys2Proof
end

