-- ==== Sys2Proof/Proofs/MemoryOps.lean ====
section
/-! The instructions that load `I` and move data through it (`42_memory_ops.md` R140 to R146), the range fault of a data access
(`60_exceptions.md` R207), read after write (`20_memory.md` R59, R61, R65), and the statements on them (O32, O34 to O39). -/

namespace Sys2Proof.Machine

/-! ### Operands -/

theorem toNat_glyphAddr (b : Byte) : (glyphAddr b).toNat = b.toNat % 16 * 5 := by
  have hlow : (b &&& 0x0F#8).toNat = b.toNat % 16 := Nat.and_two_pow_sub_one_eq_mod b.toNat 4
  unfold glyphAddr
  rw [BitVec.toNat_mul, BitVec.toNat_setWidth_of_le (by decide), hlow]
  exact Nat.mod_eq_of_lt (by simp only [BitVec.toNat_ofNat]; omega)

/-- A decimal digit, and the hundreds of a byte, fit a byte. -/
theorem toNat_digit {n : Nat} (h : n < 256) : (BitVec.ofNat 8 n).toNat = n :=
  Nat.mod_eq_of_lt h

theorem toNat_advanceI {x : Nibble} {i : Word} (h : i.toNat + x.toNat ≤ 0xFFF) :
    (i + x.setWidth 16 + 1).toNat = i.toNat + x.toNat + 1 := by
  have hx : (x.setWidth 16).toNat = x.toNat := BitVec.toNat_setWidth_of_le (by decide)
  have hone : (1 : Word).toNat = 1 := rfl
  rw [BitVec.toNat_add, BitVec.toNat_add, hx, hone]
  omega

/-! ### Frames -/

theorem storeBytes_same (bs : List Byte) (a : Nat) (s : State) :
    sameRegs s (storeBytes bs a s) ∧ (storeBytes bs a s).i = s.i ∧ sameMachine s (storeBytes bs a s) := by
  rw [storeBytes_frame]
  exact ⟨fun _ => rfl, rfl, sameMachine_update ..⟩

theorem loadRegsFrom_same (a n : Nat) (s : State) :
    sameMemory s (loadRegsFrom a n s) ∧ (loadRegsFrom a n s).i = s.i ∧ sameMachine s (loadRegsFrom a n s) := by
  rw [loadRegsFrom_frame]
  exact ⟨fun _ => rfl, rfl, sameMachine_update ..⟩

/-! ### The bulk moves -/

section
variable {x : Nibble} {s : State}

/-- The bytes of V0 to Vx lie inside memory. -/
theorem regsUpTo_fits (h : s.i.toNat + x.toNat ≤ 0xFFF) : s.i.toNat + (regsUpTo x s).length ≤ memSize := by
  rw [regsUpTo_length]
  show _ ≤ 4096
  omega

theorem readByte_storeRegs {r : Nibble} (h : s.i.toNat + x.toNat ≤ 0xFFF) (hr : r.toNat ≤ x.toNat) :
    (effect (.storeRegs x) s).readByte (s.i.toNat + r.toNat) = s.getV r := by
  simp only [effect, State.readByte_advanceI]
  rw [State.readByte_storeBytes _ _ _ (regsUpTo_fits h), if_pos (Nat.le_add_right ..), Nat.add_sub_cancel_left, regsUpTo_getD, if_pos hr,
    BitVec.ofNat_toNat, BitVec.setWidth_eq]

theorem readByte_storeRegs_outside {a : Nat} (h : s.i.toNat + x.toNat ≤ 0xFFF) (ha : a < s.i.toNat ∨ s.i.toNat + x.toNat < a) :
    (effect (.storeRegs x) s).readByte a = s.readByte a := by
  simp only [effect, State.readByte_advanceI]
  exact State.readByte_storeBytes_outside s (regsUpTo_fits h) (by rw [regsUpTo_length]; omega)

theorem getV_loadRegs (r : Nibble) :
    (effect (.loadRegs x) s).getV r = if r.toNat ≤ x.toNat then s.readByte (s.i.toNat + r.toNat) else s.getV r := by
  have hx := x.isLt
  simp only [effect, State.getV_advanceI]
  rw [loadRegsFrom_getV _ _ _ (by omega)]
  simp only [Nat.lt_succ_iff]

end

end Sys2Proof.Machine

namespace Sys2Proof

open Machine

/-- Settles O32: the two rows, and two writes of `I` that complete; the glyph address is five times the low nibble. -/
theorem addressLoads : Obligations.AddressLoads := by
  refine ⟨fun _ h => decode_of_selects (.ldI 0) h, fun _ h => decode_of_selects (.ldF 0) h, fun nnn x s => ⟨?ldI, ?ldF⟩⟩
  case ldI =>
    exact ⟨_, exec_of_ready (i := .ldI nnn) trivial, toNat_zextAddr nnn, rfl, rfl, fun _ => rfl, fun _ => rfl, sameMachine_update ..⟩
  case ldF =>
    exact ⟨_, exec_of_ready (i := .ldF x) trivial, toNat_glyphAddr _, rfl, rfl, fun _ => rfl, fun _ => rfl, sameMachine_update ..⟩

/-- Settles O34: the three digits are stored at `I` (`State.readByte_storeBytes_inside`), all other bytes stay, and nothing but memory
and `pc` changes (`storeBytes_same`). -/
theorem ldBStoresDecimalDigits : Obligations.LdBStoresDecimalDigits := by
  refine ⟨fun _ h => decode_of_selects (.ldB 0) h, fun x s hfit => ?_⟩
  have hbytes : s.i.toNat + (decimalDigits (s.getV x)).length ≤ memSize := by
    show s.i.toNat + 3 ≤ 4096
    omega
  have hdigit {k : Nat} (hk : k < (decimalDigits (s.getV x)).length) := State.readByte_storeBytes_inside s hbytes hk
  have hbyte := (s.getV x).isLt
  obtain ⟨hregs, hi, hmachine⟩ := storeBytes_same (decimalDigits (s.getV x)) s.i.toNat s
  refine ⟨_, exec_of_ready (i := .ldB x) (by show _ ≤ 0x1000; omega), ?_, ?_, ?_, fun a ha => ?_, rfl, rfl, hregs, hi, hmachine⟩
  · exact (congrArg BitVec.toNat (Option.some.inj (hdigit (show 0 < 3 by decide)))).trans (toNat_digit (by omega))
  · exact (congrArg BitVec.toNat (Option.some.inj (hdigit (show 1 < 3 by decide)))).trans (toNat_digit (by omega))
  · exact (congrArg BitVec.toNat (Option.some.inj (hdigit (show 2 < 3 by decide)))).trans (toNat_digit (by omega))
  · refine State.readByte_storeBytes_outside s hbytes ?_
    show _ ∨ s.i.toNat + 3 ≤ a
    omega

/-- Settles O35: the bytes by `readByte_storeRegs`, the others by `readByte_storeRegs_outside`, and `I` does not wrap. -/
theorem bulkStore : Obligations.BulkStore := by
  refine ⟨fun _ h => decode_of_selects (.storeRegs 0) h, fun x s hfit => ?_⟩
  obtain ⟨hregs, hi, hmachine⟩ := storeBytes_same (regsUpTo x s) s.i.toNat s
  refine ⟨_, exec_of_ready (i := .storeRegs x) (by show _ ≤ 0x1000; omega), fun r hr => readByte_storeRegs hfit hr,
    fun a ha => readByte_storeRegs_outside hfit ha, ?_, rfl, rfl, hregs, hmachine⟩
  simp only [effect, State.endAt_i, advanceI_i, hi]
  exact toNat_advanceI hfit

/-- Settles O36: the registers by `getV_loadRegs`, and `I` does not wrap. -/
theorem bulkLoad : Obligations.BulkLoad := by
  refine ⟨fun _ h => decode_of_selects (.loadRegs 0) h, fun x s hfit => ?_⟩
  obtain ⟨hmem, hi, hmachine⟩ := loadRegsFrom_same s.i.toNat (x.toNat + 1) s
  refine ⟨_, exec_of_ready (i := .loadRegs x) (by show _ ≤ 0x1000; omega), fun r hr => (getV_loadRegs r).trans (if_pos hr),
    fun r hr => (getV_loadRegs r).trans (if_neg (by omega)), ?_, rfl, rfl, hmem, hmachine⟩
  simp only [effect, State.endAt_i, advanceI_i, hi]
  exact toNat_advanceI hfit

/-- Settles O37: the store completed, so its range lies in memory; the load reads the same range of the same memory. -/
theorem bulkLoadInvertsBulkStore : Obligations.BulkLoadInvertsBulkStore := by
  intro x s t u hstore hresult hmem hcfg hi
  cases ExecTo.of_exec hstore with
  | faults | waits => cases hresult
  | completes hready =>
    have hfit : s.i.toNat + (x.toNat + 1) ≤ 0x1000 := hready
    refine ⟨_, exec_of_ready (i := .loadRegs x) (by rw [ready, hi]; exact hfit), rfl, fun r hr => ?_⟩
    calc (effect (.loadRegs x) u).getV r
        = u.readByte (u.i.toNat + r.toNat) := (getV_loadRegs r).trans (if_pos hr)
      _ = (effect (.storeRegs x) s).readByte (s.i.toNat + r.toNat) := by rw [hi]; exact State.readByte_congr hmem hcfg _
      _ = s.getV r := readByte_storeRegs (by omega) hr

/-- Settles O38: all four check their range first (`withDataRange_fault`). -/
theorem dataAccessFaults : Obligations.DataAccessFaults := by
  rintro s _ rfl
  refine ⟨fun x h => ?_, fun x h => ?_, fun x h => ?_, fun x y n hn h => ?_⟩
  · exact withDataRange_fault (len := 3) (by decide) (by omega) _
  · exact withDataRange_fault (len := x.toNat + 1) (by omega) (by omega) _
  · exact withDataRange_fault (len := x.toNat + 1) (by omega) (by omega) _
  · exact withDataRange_fault (len := n.toNat) hn (by omega) _

/-- Settles O39: `State.readByte_writeByte`, once for one byte, and for each of the two bytes at `pc`. -/
theorem readAfterWrite : Obligations.ReadAfterWrite := by
  refine ⟨fun s a b ha => ?byte, fun s hi lo hpc => ?fetch⟩
  case byte =>
    have hread := State.readByte_writeByte s (show a < memSize from Nat.lt_succ_of_le ha) b
    exact ⟨(hread a).trans (if_pos rfl), fun c hc => (hread c).trans (if_neg hc), fun _ => rfl, rfl, rfl,
      sameMachine_update ..⟩
  case fetch =>
    have hfirst : s.pc.toNat < memSize := by
      show _ < 4096
      omega
    have hsecond : s.pc.toNat + 1 < memSize := by
      show _ < 4096
      omega
    have hhi : ((s.writeByte s.pc.toNat hi).writeByte (s.pc.toNat + 1) lo).readByte s.pc.toNat = hi := by
      rw [State.readByte_writeByte _ hsecond, if_neg (by omega), State.readByte_writeByte _ hfirst, if_pos rfl]
    have hlo : ((s.writeByte s.pc.toNat hi).writeByte (s.pc.toNat + 1) lo).readByte (s.pc.toNat + 1) = lo := by
      rw [State.readByte_writeByte _ hsecond, if_pos rfl]
    show (wordOfBytes _ _).toNat = _
    simp only [State.writeByte_pc]
    rw [hhi, hlo]
    exact toNat_append_eq_add hi lo

end Sys2Proof
end

