-- ==== Sys2Proof/Proofs/InputOutput.lean ====
section
/-! The random byte, the keys, the timer moves and CLS (`43_random.md` R160, `44_input.md` R165 to R168, `45_timers.md` R175 to R177,
`46_display.md` R180), and the statements on them (O40 to O45). -/

namespace Sys2Proof.Machine

/-! ### The key slot that a byte names -/

theorem slot_of_getElem {s : State} {b slot : Byte} (h : s.keys.toList[b.toNat]? = some slot) :
    b.toNat ≤ 15 ∧ s.pressed (b.setWidth 4) = (slot != 0) := by
  obtain ⟨hlt, hslot⟩ := List.getElem?_eq_some_iff.mp h
  have h16 : b.toNat < 16 := by simpa using hlt
  have hk : (b.setWidth 4).toNat = b.toNat := by
    rw [BitVec.toNat_setWidth]
    exact Nat.mod_eq_of_lt h16
  refine ⟨by omega, ?_⟩
  simp only [State.pressed, hk]
  rw [← hslot, Vector.getElem_toList]

/-! ### LD Vx, K -/

theorem exec_ldKey_of_first (x : Nibble) {s : State} {k : Nibble} (h : firstPressed s = some k) :
    exec (.ldKey x) s = completeNext (s.setV x (k.setWidth 8)) := by
  simp only [exec, execLdKey, h]

end Sys2Proof.Machine

namespace Sys2Proof

open Machine

/-- Settles O40: the byte drawn is masked into Vx and the count of draws goes up by one; the rest is a completing register write. -/
theorem rndMasksTheDrawnByte : Obligations.RndMasksTheDrawnByte := by
  refine ⟨fun _ h => decode_of_selects (.rnd 0 0) h, fun x nn s => ?_⟩
  obtain ⟨t, hexec, hx, hpc, hresult, hothers, hi, hmem, hstack, htimers, hdisplay, hcontrol, hdraws⟩ :=
    completeNext_setV s.afterDraw x (s.drawnByte &&& nn)
  exact ⟨t, hexec, fun k => by rw [hx, BitVec.getLsbD_and, State.drawnByte], hdraws, hpc, hresult, hothers, hi, hmem, hstack, htimers,
    hdisplay, hcontrol⟩

/-- Settles O41: the byte names the slot (`slot_of_getElem`), and the two skips are instructions without writes. -/
theorem keySkips : Obligations.KeySkips := by
  refine ⟨fun _ h => decode_of_selects (.skp 0) h, fun _ h => decode_of_selects (.sknp 0) h, fun x s slot hslot => ?_⟩
  obtain ⟨hkey, hpressed⟩ := slot_of_getElem hslot
  refine ⟨exec_writes_pc_alone (i := .skp x) hkey rfl ?_, exec_writes_pc_alone (i := .sknp x) hkey rfl ?_⟩
  · rw [target, hpressed]
    exact skip_of_bne slot 0 s
  · rw [target, hpressed, bne, Bool.not_not]
    exact skip_of_beq slot 0 s

/-- Settles O42: both skips check the number first (`withKey_fault`); LD Vx, K completes or waits. -/
theorem keyNumberFaults : Obligations.KeyNumberFaults := by
  refine ⟨fun x s hkey info hinfo => ?_, fun x s t hexec => ?_⟩
  · obtain rfl : info = zextByte (s.getV x) := BitVec.eq_of_toNat_eq (hinfo.trans (toNat_zextByte _).symm)
    exact ⟨withKey_fault hkey s _, withKey_fault hkey s _⟩
  · cases hfirst : firstPressed s with
    | none =>
      cases (exec_ldKey_of_none_pressed x (firstPressed_none.mp hfirst)).symm.trans hexec
      rfl
    | some k =>
      cases (exec_ldKey_of_first x hfirst).symm.trans hexec
      rfl

/-- Settles O43: the scan finds the least pressed key (`firstPressed_least`), whose number is written to Vx. -/
theorem keyWaitTakesTheLowestKey : Obligations.KeyWaitTakesTheLowestKey := by
  refine ⟨fun _ h => decode_of_selects (.ldKey 0) h, fun x k s hk hlow => ?_⟩
  obtain ⟨t, hexec, hx, hrest⟩ := completeNext_setV s x (k.setWidth 8)
  refine ⟨t, (exec_ldKey_of_first x (firstPressed_least hk hlow)).trans hexec, ?_, hrest⟩
  rw [hx]
  exact BitVec.toNat_setWidth_of_le (by decide)

/-- Settles O44: the three rows, a completing register write, and two writes of a timer alone. -/
theorem timerMoves : Obligations.TimerMoves :=
  ⟨fun _ h => decode_of_selects (.ldFromDT 0) h, fun _ h => decode_of_selects (.ldDT 0) h, fun _ h => decode_of_selects (.ldST 0) h,
    fun x s => ⟨completeNext_setV s x s.dt,
      ⟨_, exec_of_ready (i := .ldDT x) trivial, rfl, rfl, rfl, rfl, fun _ => rfl, rfl, fun _ => rfl, ⟨rfl, rfl⟩, ⟨rfl, rfl⟩,
        ⟨rfl, rfl, rfl⟩, rfl⟩,
      ⟨_, exec_of_ready (i := .ldST x) trivial, rfl, rfl, rfl, rfl, fun _ => rfl, rfl, fun _ => rfl, ⟨rfl, rfl⟩, ⟨rfl, rfl⟩,
        ⟨rfl, rfl, rfl⟩, rfl⟩⟩⟩

/-- Settles O45: the word, and a write of the framebuffer and the signal alone. -/
theorem clsClearsEveryCell : Obligations.ClsClearsEveryCell :=
  ⟨decode_encode .cls, fun s => ⟨_, exec_of_ready (i := .cls) (s := s) trivial, fun _ _ => BitVec.getLsbD_zero, rfl, rfl, rfl,
    fun _ => rfl, rfl, fun _ => rfl, ⟨rfl, rfl⟩, ⟨rfl, rfl⟩, ⟨rfl, rfl, rfl⟩, rfl⟩⟩

end Sys2Proof
end

