-- ==== Sys2Proof/Proofs/Host.lean ====
section
/-! The reset table (`10_state.md` R37), the host's policy after an unknown word (`60_exceptions.md` R202), a refused image and a key
write, and the statements on them (O58, O60). -/

namespace Sys2Proof.Machine

/-! ### The reset state -/

theorem getV_resetWith (c : Config) (r : Nibble) : (State.resetWith c).getV r = 0 := by
  have hr := r.isLt
  simp [State.getV, State.resetWith]

/-- An unwritten address reads as FONT below 0x050 and as 0 above (R37). -/
theorem some_memDefault (font : Font) {k : Nat} (hk : k < 80) : some (memDefault font k) = font.toList[k]? := by
  simp [memDefault, Vector.getD, hk]

theorem memDefault_above (font : Font) {a : Nat} (ha : 80 ≤ a) : memDefault font a = 0 := by
  simp [memDefault, Vector.getD, Nat.not_lt.mpr ha]

theorem getElem?_zeros {α : Type} (z : α) {k : Nat} (hk : k < 16) : (Vector.replicate 16 z).toList[k]? = some z := by
  rw [Vector.toList_replicate, List.getElem?_replicate, if_pos hk]

/-! ### The host's policy -/

theorem afterUnknown_of_skip {s : State} {w : Word} (h : s.result = .unknownInstruction w) (hskip : s.cfg.unknownPolicy = .skip) :
    s.afterUnknown = { s with pc := s.pc + 2, result := .idle } ∧ s.hostContinues = true := by
  simp [State.afterUnknown, State.hostContinues, h, hskip]

theorem afterUnknown_of_halt {s : State} {w : Word} (h : s.result = .unknownInstruction w) (hhalt : s.cfg.unknownPolicy = .halt) :
    s.afterUnknown = s ∧ s.hostContinues = false := by
  simp [State.afterUnknown, State.hostContinues, h, hhalt]

/-- A refused image names its length, saturated (R200). -/
theorem info_of_load_error {image : List Byte} {s : State} {info : Word} (h : s.load image = .error (.imageTooLarge info)) :
    info.toNat = min image.length 0xFFFF := by
  by_cases hfits : image.length ≤ 3584
  · rw [State.load_of_fits s hfits] at h
    cases h
  · rw [State.load_of_too_large s (by omega)] at h
    cases h
    exact Nat.mod_eq_of_lt (by omega)

end Sys2Proof.Machine

namespace Sys2Proof

open Machine

/-- Settles O58: the host's reset gives the reset state with the parameters and the count of draws carried on, so each row of the table is
one of the reset state. -/
theorem initializeGivesTheResetTable : Obligations.InitializeGivesTheResetTable := by
  refine ⟨fun s t ht => ?_, rfl⟩
  subst ht
  exact ⟨getV_resetWith s.cfg, rfl, rfl, fun _ => getElem?_zeros _, rfl, rfl, rfl, fun _ => some_memDefault s.cfg.font,
    fun _ => memDefault_above s.cfg.font, fun _ _ => BitVec.getLsbD_zero, fun _ => getElem?_zeros _, rfl, rfl, rfl⟩

/-- Settles O60: the two policies, the refusal (`info_of_load_error`), and the one slot of a key write (`State.pressed_setKey`). -/
theorem hostPolicyAndKeys : Obligations.HostPolicyAndKeys :=
  ⟨fun _ _ h => ⟨afterUnknown_of_skip h, afterUnknown_of_halt h⟩, fun _ _ _ h => ⟨rfl, info_of_load_error h⟩,
    fun s k j down => ⟨Vector.toList_set k.isLt, s.pressed_setKey k j down, rfl⟩⟩

end Sys2Proof
end

