-- ==== Sys2Proof/Proofs/Sprites.lean ====
section
/-! The cells of a sprite under the three edge policies, and what drawing it once and twice does (`46_display.md` R181 to R183,
`60_exceptions.md` R209, `95_test_vectors.md` S5), and the statements on DRW (O46 to O50). -/

namespace Sys2Proof.Machine

/-! ### The cells of a sprite are different ones, inside the framebuffer -/

/-- Two cells of a sprite of at most 15 rows on the same framebuffer cell are the same cell: a row has 8 columns of 64, and under `wrap`
the rows are fewer than 32. -/
theorem cellAt_inj {policy : DrawEdgePolicy} {vx vy k r c r' c' : Nat} (hr : r < 15) (hc : c < 8) (hr' : r' < 15) (hc' : c' < 8)
    (h : cellAt policy (vx + c) (vy + r) = some k) (h' : cellAt policy (vx + c') (vy + r') = some k) : r = r' ∧ c = c' := by
  cases policy with
  | raw =>
    simp only [cellAt, Option.some.injEq] at h h'
    omega
  | clip =>
    simp only [cellAt, Option.ite_none_right_eq_some, Option.some.injEq] at h h'
    omega
  | wrap =>
    simp only [cellAt, Option.some.injEq] at h h'
    omega

/-- On the screen the three policies agree (R183). -/
theorem cellAt_on_screen (policy : DrawEdgePolicy) {px py : Nat} (hx : px ≤ 63) (hy : py ≤ 31) :
    cellAt policy px py = some (py * 64 + px) := by
  cases policy with
  | raw => rfl
  | clip => exact if_pos ⟨hx, hy⟩
  | wrap => rw [cellAt, Nat.mod_eq_of_lt (by omega), Nat.mod_eq_of_lt (by omega)]

/-- A sprite has at most 15 rows. -/
theorem rows_le (n : Nibble) : n.toNat ≤ 15 := Nat.le_of_lt_succ n.isLt

section
variable {s : State} {vx vy n : Nat}

theorem mem_spriteCells_iff_hits {k : Nat} : k ∈ spriteCells s vx vy n ↔ spriteHits s vx vy n k :=
  mem_spriteCells

theorem spriteCells_lt (hfit : boxFits s vx vy n) : ∀ k ∈ spriteCells s vx vy n, k < 2048 := by
  intro k hk
  obtain ⟨r, c, hr, hc, -, hcell⟩ := mem_spriteCells.mp hk
  cases hpolicy : s.cfg.drawEdge with
  | raw =>
    have hbox := hfit hpolicy
    simp only [hpolicy, cellAt, Option.some.injEq] at hcell
    omega
  | clip =>
    simp only [hpolicy, cellAt, Option.ite_none_right_eq_some, Option.some.injEq] at hcell
    omega
  | wrap =>
    simp only [hpolicy, cellAt, Option.some.injEq] at hcell
    omega

theorem rowCells_nodup (policy : DrawEdgePolicy) (b : Byte) (px py : Nat) : (rowCells policy b px py).Nodup := by
  refine List.pairwise_filterMap.mpr (List.nodup_range.imp_of_mem fun {c c'} hc hc' hne k hk k' hk' => ?_)
  rw [Option.ite_none_right_eq_some] at hk hk'
  rintro rfl
  exact hne (cellAt_inj (r := 0) (r' := 0) (by decide) (List.mem_range.mp hc) (by decide) (List.mem_range.mp hc') hk.2 hk'.2).2

theorem spriteCells_nodup (hrows : n ≤ 15) : (spriteCells s vx vy n).Nodup := by
  refine List.nodup_flatMap.mpr ⟨fun r _ => rowCells_nodup .., List.nodup_range.imp_of_mem fun {r r'} hr hr' hne k hk hk' => ?_⟩
  obtain ⟨c, hc, -, hcell⟩ := mem_rowCells.mp hk
  obtain ⟨c', hc', -, hcell'⟩ := mem_rowCells.mp hk'
  have hr := List.mem_range.mp hr
  have hr' := List.mem_range.mp hr'
  exact hne (cellAt_inj (by omega) hc (by omega) hc' hcell hcell').1

/-! ### Drawing once -/

/-- The cells under the sprite's 1 bits are inverted. -/
theorem cell_drawSprite_of_hit {k : Nat} (hrows : n ≤ 15) (hfit : boxFits s vx vy n) (hk : spriteHits s vx vy n k) :
    (drawSprite vx vy n s).cell k = !s.cell k :=
  (drawCells_cell s.fb (spriteCells_nodup hrows) (spriteCells_lt hfit) k).trans (if_pos (mem_spriteCells_iff_hits.mpr hk))

/-- The other cells are unchanged. -/
theorem cell_drawSprite_of_not_hit {k : Nat} (hrows : n ≤ 15) (hfit : boxFits s vx vy n) (hk : ¬ spriteHits s vx vy n k) :
    (drawSprite vx vy n s).cell k = s.cell k :=
  (drawCells_cell s.fb (spriteCells_nodup hrows) (spriteCells_lt hfit) k).trans (if_neg (mt mem_spriteCells_iff_hits.mp hk))

/-- VF is 1 exactly when a cell that is hit was 1, and else 0. -/
theorem getV_drawSprite_regF (hrows : n ≤ 15) (hfit : boxFits s vx vy n) :
    ((∃ k, spriteHits s vx vy n k ∧ s.cell k = true) → (drawSprite vx vy n s).getV 0xF = 1) ∧
      ((∀ k, spriteHits s vx vy n k → s.cell k = false) → (drawSprite vx vy n s).getV 0xF = 0) := by
  have hflag : (drawSprite vx vy n s).getV 0xF = if (drawCells (spriteCells s vx vy n) s.fb).2 then 1 else 0 :=
    (drawSprite_getV ..).trans (if_pos rfl)
  have hcollision := drawCells_collision s.fb (spriteCells_nodup hrows) (spriteCells_lt hfit)
  rw [hflag]
  refine ⟨fun ⟨k, hk, hone⟩ => ?_, fun hzero => if_neg fun htrue => ?_⟩
  · exact if_pos (hcollision.mpr ⟨k, mem_spriteCells_iff_hits.mpr hk, hone⟩)
  · obtain ⟨k, hk, hone⟩ := hcollision.mp htrue
    exact absurd (hone.symm.trans (hzero k (mem_spriteCells_iff_hits.mp hk))) (by decide)

theorem getV_drawSprite_of_ne {r : Nibble} (hr : r ≠ 0xF) : (drawSprite vx vy n s).getV r = s.getV r :=
  (drawSprite_getV ..).trans (if_neg hr)

/-! ### Drawing twice -/

/-- A draw reads its sprite from memory at `I` under the policy, and changes none of the three. -/
theorem spriteHits_congr {t : State} (hi : t.i = s.i) (hmem : t.mem = s.mem) (hcfg : t.cfg = s.cfg) (k : Nat) :
    spriteHits t vx vy n k ↔ spriteHits s vx vy n k := by
  simp only [spriteHits, hi, hcfg, State.readByte_congr hmem hcfg]

/-- Each cell is inverted twice or not at all. -/
theorem fb_drawSprite_twice {t : State} (hrows : n ≤ 15) (hfit : boxFits s vx vy n) (hi : t.i = s.i) (hmem : t.mem = s.mem)
    (hcfg : t.cfg = s.cfg) (hfb : t.fb = (drawSprite vx vy n s).fb) : (drawSprite vx vy n t).fb = s.fb := by
  have hfit' : boxFits t vx vy n := fun hraw => hfit (hcfg ▸ hraw)
  have hcell (k : Nat) : t.cell k = (drawSprite vx vy n s).cell k := congrArg (·.getLsbD k) hfb
  refine BitVec.eq_of_getLsbD_eq fun k _ => ?_
  show (drawSprite vx vy n t).cell k = s.cell k
  by_cases hk : spriteHits s vx vy n k
  · rw [cell_drawSprite_of_hit hrows hfit' ((spriteHits_congr hi hmem hcfg k).mpr hk), hcell, cell_drawSprite_of_hit hrows hfit hk,
      Bool.not_not]
  · rw [cell_drawSprite_of_not_hit hrows hfit' (mt (spriteHits_congr hi hmem hcfg k).mp hk), hcell,
      cell_drawSprite_of_not_hit hrows hfit hk]

/-- The second collision is with the cells that the first draw turned to 1. -/
theorem getV_drawSprite_twice {t : State} (hrows : n ≤ 15) (hfit : boxFits s vx vy n) (hi : t.i = s.i) (hmem : t.mem = s.mem)
    (hcfg : t.cfg = s.cfg) (hfb : t.fb = (drawSprite vx vy n s).fb) :
    (drawSprite vx vy n t).getV 0xF = 1 ↔ ∃ k, spriteHits s vx vy n k ∧ s.cell k = false := by
  have hfit' : boxFits t vx vy n := fun hraw => hfit (hcfg ▸ hraw)
  have hcell {k : Nat} (hk : spriteHits s vx vy n k) : t.cell k = !s.cell k :=
    (congrArg (·.getLsbD k) hfb).trans (cell_drawSprite_of_hit hrows hfit hk)
  obtain ⟨hone, hzero⟩ := getV_drawSprite_regF hrows hfit'
  constructor
  · intro h
    by_contra hnone
    refine absurd (h.symm.trans (hzero fun k hk => ?_)) (by decide)
    have hk := (spriteHits_congr hi hmem hcfg k).mp hk
    rw [hcell hk]
    cases hs : s.cell k with
    | true => rfl
    | false => exact absurd ⟨k, hk, hs⟩ hnone
  · rintro ⟨k, hk, hs⟩
    exact hone ⟨k, (spriteHits_congr hi hmem hcfg k).mpr hk, by rw [hcell hk, hs]; rfl⟩

/-! ### Drawing inside the screen -/

/-- The state with another edge policy. -/
def State.withPolicy (s : State) (p : DrawEdgePolicy) : State := { s with cfg := { s.cfg with drawEdge := p } }

theorem spriteCells_withPolicy (p : DrawEdgePolicy) (hx : vx ≤ 56) (hy : vy + n ≤ 32) :
    spriteCells (s.withPolicy p) vx vy n = spriteCells s vx vy n := by
  refine List.flatMap_congr fun r hr => List.filterMap_congr fun c hc => ?_
  have hr := List.mem_range.mp hr
  have hc := List.mem_range.mp hc
  rw [cellAt_on_screen _ (by omega) (by omega), cellAt_on_screen _ (by omega) (by omega)]
  rfl

theorem drawSprite_withPolicy (p : DrawEdgePolicy) (hx : vx ≤ 56) (hy : vy + n ≤ 32) :
    drawSprite vx vy n (s.withPolicy p) = (drawSprite vx vy n s).withPolicy p := by
  unfold drawSprite
  rw [spriteCells_withPolicy p hx hy]
  rfl

theorem boxFits_on_screen (hx : vx ≤ 56) (hy : vy + n ≤ 32) : boxFits s vx vy n :=
  fun _ => by omega

end

/-! ### The edge fault -/

theorem withCells_fault {vx vy n : Nat} {s : State} (hraw : s.cfg.drawEdge = .raw) (hn : 0 < n) (hpast : 2047 < (vy + n - 1) * 64 + vx + 7)
    (body : Host.Outcome State Fault Refusal) :
    withCells vx vy n s body = raiseFault .framebufferOutOfRange (BitVec.ofNat 16 ((vy + n - 1) * 64 + vx + 7)) s := by
  rcases withCells_cases vx vy n s body with ⟨-, -, -, e⟩ | ⟨hfit, -⟩
  · exact e
  · have := hfit hraw
    omega

theorem exec_drw_of_memory_fault {x y n : Nibble} {s : State} (hn : 0 < n.toNat) (hpast : 0x1000 < s.i.toNat + n.toNat) :
    exec (.drw x y n) s = .next (takeFault .memoryOutOfRange (BitVec.ofNat 16 (max s.i.toNat 0x1000)) s) :=
  withDataRange_fault hn hpast _

/-! ### What the first draw leaves for the second -/

theorem exec_drw_keeps_sprite {x y n : Nibble} {s t : State} (hx : x ≠ 0xF) (hy : y ≠ 0xF) (hfits : drawFits s x y n)
    (hdraw : exec (.drw x y n) s = .next t) :
    t.getV x = s.getV x ∧ t.getV y = s.getV y ∧ t.i = s.i ∧ t.mem = s.mem ∧ t.cfg = s.cfg ∧
      t.fb = (drawSprite (s.getV x).toNat (s.getV y).toNat n.toNat s).fb := by
  cases (exec_drw_of_fits hfits).symm.trans hdraw
  exact ⟨getV_drawSprite_of_ne hx, getV_drawSprite_of_ne hy, rfl, rfl, rfl, rfl⟩

end Sys2Proof.Machine

namespace Sys2Proof

open Machine

/-- Settles O46: the draw completes (`exec_drw_of_fits`); its cells and VF are those of `drawSprite`, which touches nothing else. -/
theorem drwXorsTheSprite : Obligations.DrwXorsTheSprite := by
  refine ⟨fun _ h => decode_of_selects (.drw 0 0 0) h, fun x y n s hfits => ?_⟩
  have hbox := boxFits_of_drawFits hfits
  obtain ⟨hone, hzero⟩ := getV_drawSprite_regF (rows_le n) hbox
  exact ⟨_, exec_drw_of_fits hfits, fun k => cell_drawSprite_of_hit (rows_le n) hbox,
    fun k => cell_drawSprite_of_not_hit (rows_le n) hbox, hone, hzero, rfl, rfl, rfl,
    fun r hr => getV_drawSprite_of_ne hr, rfl, fun _ => rfl, ⟨rfl, rfl⟩, ⟨rfl, rfl⟩, ⟨rfl, rfl, rfl⟩, rfl⟩

/-- Settles O47: past the last cell the edge check faults (`withCells_fault`); where the policy has no edge, or there are no
rows, a draw completes or faults on memory. -/
theorem framebufferFaults : Obligations.FramebufferFaults := by
  refine ⟨fun x y n s hraw hn hrange hpast info hinfo => ?faults, fun x y n s t hnone hexec info hresult => ?never⟩
  case faults =>
    have hinfo' : info = BitVec.ofNat 16 (((s.getV y).toNat + n.toNat - 1) * 64 + (s.getV x).toNat + 7) := by
      rw [← hinfo, BitVec.ofNat_toNat, BitVec.setWidth_eq]
    rw [hinfo']
    exact (withDataRange_ok (len := n.toNat) (.inr (by omega)) _).trans (withCells_fault hraw hn hpast _)
  case never =>
    have hbox : boxFits s (s.getV x).toNat (s.getV y).toNat n.toNat :=
      fun hraw => .inl (hnone.resolve_left fun hpolicy => hpolicy hraw)
    by_cases hrange : n.toNat = 0 ∨ s.i.toNat + n.toNat ≤ 0x1000
    · cases (exec_drw_ok hrange hbox).symm.trans hexec
      cases hresult
    · cases (exec_drw_of_memory_fault (by omega) (by omega)).symm.trans hexec
      cases hresult

/-- Settles O48: the formulas are the definition of `cellAt`, the distinctness is `cellAt_inj`. -/
theorem spriteCellsAreDistinct : Obligations.SpriteCellsAreDistinct :=
  ⟨fun _ _ => rfl, fun _ _ => rfl, fun _ _ => rfl, fun _ _ _ _ _ _ _ _ => cellAt_inj⟩

/-- Settles O49: the first draw keeps Vx, Vy, `I`, memory and the policy, so the second flips the same cells back (`fb_drawSprite_twice`)
and collides with those that had been 0 (`getV_drawSprite_twice`). -/
theorem drawingTwiceRestores : Obligations.DrawingTwiceRestores := by
  intro x y n s t hx hy hfits hdraw
  obtain ⟨hvx, hvy, hi, hmem, hcfg, hfb⟩ := exec_drw_keeps_sprite hx hy hfits hdraw
  have hbox := boxFits_of_drawFits hfits
  have hfits' : drawFits t x y n := by
    unfold drawFits
    rwa [hvx, hvy, hi, hcfg]
  have hexec := exec_drw_of_fits hfits'
  rw [hvx, hvy] at hexec
  exact ⟨_, hexec, rfl, fb_drawSprite_twice (rows_le n) hbox hi hmem hcfg hfb, getV_drawSprite_twice (rows_le n) hbox hi hmem hcfg hfb⟩

/-- Settles O50: on the screen the policies have the same cells (`drawSprite_withPolicy`) and no edge fault, and the memory fault does not
depend on the policy. -/
theorem policiesAgreeOnScreen : Obligations.PoliciesAgreeOnScreen := by
  intro x y n p s t t' hx hy hdraw hdraw'
  by_cases hrange : n.toNat = 0 ∨ s.i.toNat + n.toNat ≤ 0x1000
  · cases (exec_drw_ok hrange (boxFits_on_screen hx hy)).symm.trans hdraw
    cases (exec_drw_ok (s := s.withPolicy p) hrange (boxFits_on_screen hx hy)).symm.trans hdraw'
    have hsame := drawSprite_withPolicy (s := s) p hx hy
    have hfb := congrArg State.fb hsame
    have hregs (r : Nibble) := congrArg (·.getV r) hsame
    exact ⟨hfb, hregs, rfl, rfl, rfl⟩
  · have hn : 0 < n.toNat := by omega
    have hpast : 0x1000 < s.i.toNat + n.toNat := by omega
    cases (exec_drw_of_memory_fault hn hpast).symm.trans hdraw
    cases (exec_drw_of_memory_fault (s := s.withPolicy p) hn hpast).symm.trans hdraw'
    exact ⟨rfl, fun _ => rfl, rfl, rfl, rfl⟩

end Sys2Proof
end

