-- ==== Sys2Proof/Proofs/RegisterWriters.lean ====
section
/-! Which register an instruction may change (`10_state.md` R22, `41_register_ops.md` R133), and the statement on it (O52). -/

namespace Sys2Proof.Machine

section
variable {s : State} {x r : Nibble} {f : State → Byte} {g : State → Word}

/-- A register that is neither the destination nor VF keeps its value in both write orders. -/
theorem getV_writeWithFlag_setV (flag : Bool) (hx : r ≠ x) (hr : r ≠ 0xF) :
    (writeWithFlag flag (fun t => t.setV x (f t)) s).getV r = s.getV r := by
  rcases writeWithFlag_cases flag (fun t => t.setV x (f t)) s with ⟨-, e⟩ | ⟨-, e⟩ <;> rw [e]
  · rw [getV_setFlag_of_ne _ _ hr, State.getV_setV, if_neg hx]
  · rw [State.getV_setV, if_neg hx, getV_setFlag_of_ne _ _ hr]

theorem getV_writeWithFlag_setI (flag : Bool) (hr : r ≠ 0xF) :
    (writeWithFlag flag (fun t => t.setI (g t)) s).getV r = s.getV r := by
  rcases writeWithFlag_cases flag (fun t => t.setI (g t)) s with ⟨-, e⟩ | ⟨-, e⟩ <;> rw [e] <;> exact getV_setFlag_of_ne _ _ hr

theorem getV_setV_of_ne (b : Byte) (hx : r ≠ x) : (s.setV x b).getV r = s.getV r :=
  (State.getV_setV ..).trans (if_neg hx)

end

/-- A register that is no destination, and is not VF in a flag writer, keeps its value. -/
theorem effect_getV {i : Instr} {r : Nibble} (s : State) (hdest : Instr.isDestination i r = false)
    (hflag : r = 0xF → Instr.writesFlag i = false) : (effect i s).getV r = s.getV r := by
  cases i with
  | jp | jpV0 | ret | seImm | sneImm | seReg | sneReg | skp | sknp | ldI | ldF | ldDT | ldST | cls => rfl
  | call =>
    simp only [effect]
    split <;> rfl
  | ldImm | addImm | ldReg | or | and | xor | rnd | ldFromDT => exact getV_setV_of_ne _ (ne_of_beq_false hdest)
  | ldKey =>
    simp only [effect]
    split
    · exact getV_setV_of_ne _ (ne_of_beq_false hdest)
    · rfl
  | addReg | sub | subn | shr | shl =>
    exact getV_writeWithFlag_setV _ (ne_of_beq_false hdest) fun hr => nomatch hflag hr
  | addI => exact getV_writeWithFlag_setI _ fun hr => nomatch hflag hr
  | drw => exact getV_drawSprite_of_ne fun hr => nomatch hflag hr
  | ldB => exact (storeBytes_same ..).1 r
  | storeRegs => exact (storeBytes_same ..).1 r
  | loadRegs x => exact (getV_loadRegs r).trans (if_neg (of_decide_eq_false hdest))

/-- Under `flag_last` a flag writer leaves its flag in VF, whatever its destination. -/
theorem effect_regF {i : Instr} {s : State} (hwrites : Instr.writesFlag i = true) (hlast : s.cfg.vfWriteOrder = .flagLast) :
    ∃ flag : Bool, (effect i s).getV 0xF = if flag then 1 else 0 := by
  cases i with
  | addReg | sub | subn | shr | shl | addI =>
    simp only [effect]
    rw [writeWithFlag_last hlast]
    exact ⟨_, getV_setFlag_regF ..⟩
  | drw => exact ⟨_, (drawSprite_getV ..).trans (if_pos rfl)⟩
  | _ => cases hwrites

end Sys2Proof.Machine

namespace Sys2Proof

open Machine

/-- Settles O52: an instruction that faults or waits changes no register, and one that completes those of `effect_getV`; the flag it leaves
in VF under `flag_last` is 0 or 1 (`effect_regF`). -/
theorem registersChangeOnlyAsDestinationOrFlag : Obligations.RegistersChangeOnlyAsDestinationOrFlag := by
  intro i s t hexec
  cases ExecTo.of_exec hexec with
  | completes =>
    refine ⟨fun r hdest hflag => effect_getV s hdest hflag, fun hwrites hlast _ => ?_⟩
    obtain ⟨flag, hvf⟩ := effect_regF hwrites hlast
    cases flag with
    | true => exact .inr hvf
    | false => exact .inl hvf
  | faults | waits => exact ⟨fun _ _ _ => rfl, fun _ _ hresult => nomatch hresult⟩

end Sys2Proof
end
